-- ==== Sys2Proof/Word.lean ====
section
/-! DEFINITION. The word types of the ADPCM codec core: the widths of R7, R21, R45, R60, R68 and R69. -/

namespace Sys2Proof

/-- A command word `cmd[35:0]` (R60). -/
abbrev CommandWord := BitVec 36

/-- A response word `rsp[31:0]` (R68). -/
abbrev ResponseWord := BitVec 32

/-- A PCM sample, or a predictor: a 16-bit two's-complement pattern (R21, R45). -/
abbrev Sample := BitVec 16

/-- One compressed byte (R45, R69). -/
abbrev CodeByte := BitVec 8

/-- A code (nibble), 0..15 (R7, R45). -/
abbrev Code := BitVec 4

/-- The 7-bit unsigned `stepIndex` field (R21). -/
abbrev StepIndex := BitVec 7

end Sys2Proof
end

