-- ==== Sys2Proof/Config.lean ====
section
/-! DEFINITION. What one core holds fixed (the step-size table, R27, R33) and the free value of the spec (the draw of R172). -/

namespace Sys2Proof

/-- The named parameter `STEP_TABLE` (R27, D10): configuration, not state that a step writes (R33).
Entry `i` of the list is `STEP_TABLE[i]`. The constraints a table must meet are `Config.wellFormed`. -/
structure Config where
  stepTable : List Nat
  deriving DecidableEq, Repr

/-- FREE VALUE (R172, D14, I4; DESIGN CHOICE, log 4). A response that is undelivered when the hardware reset is asserted "is a
draw": `responseLost k n = true` says that the `n`-th such response of the run of the core on draw stream `k` is lost, `false`
that the host still gets it. It has no body, so no proof can use a value of it, or that two streams agree anywhere. -/
opaque Config.responseLost : Nat → Nat → Bool

end Sys2Proof
end

