-- ==== Sys2Proof/Syntax.lean ====
section
/-! DEFINITION. The four commands of R61, one constructor for each row of spec/opcode_table.json. -/

namespace Sys2Proof

/-- A command. Operands are the bit patterns of the command word's fields: R66 scales, shifts and offsets none of them. -/
inductive Instr where
  /-- `enc L, R`: ENCODE_PAIR (R62, R100). -/
  | enc (left right : Sample)
  /-- `dec B`: DECODE_BYTE (R63, R120). -/
  | dec (byte : CodeByte)
  /-- `rst.enc`: RESET_ENCODER (R64, R140). -/
  | rstEnc
  /-- `rst.dec`: RESET_DECODER (R65, R141). -/
  | rstDec
  deriving DecidableEq, Repr

end Sys2Proof
end

