-- ==== Sys2Proof/WellFormed.lean ====
section
/-! DEFINITION. What is well formed: a command, a command word (R67, by the rows of spec/opcode_table.json), a step-size
table (R27). -/

namespace Sys2Proof

/-- Every value of every operand is legal (R62: "Every value of L and R is legal"; R63: "Every value of B (0x00..0xFF) is
legal"), and an operand outside its width cannot be written: no command is ill formed. -/
def Instr.wellFormed (i : Instr) : Bool :=
  match i with
  | .enc _ _ => true
  | .dec _ => true
  | .rstEnc => true
  | .rstDec => true

/-- One row of the opcode table: `w` spells the row's command when `w &&& mask = pattern`. -/
structure OpcodeRow where
  pattern : CommandWord
  mask : CommandWord
  deriving DecidableEq, Repr

/-- Does the word match the row? -/
def OpcodeRow.admits (r : OpcodeRow) (w : CommandWord) : Bool := w &&& r.mask == r.pattern

/-- match and mask of R62, R63, R64, R65 (spec/opcode_table.json), in the table's order. -/
def opcodeRows : List OpcodeRow :=
  [ ⟨0x100000000#36, 0xF00000000#36⟩,
    ⟨0x200000000#36, 0xFFFFFFF00#36⟩,
    ⟨0x300000000#36, 0xFFFFFFFFF#36⟩,
    ⟨0x400000000#36, 0xFFFFFFFFF#36⟩ ]

/-- A word outside the reserved space of R67: it matches a row of the opcode table. -/
def CommandWord.wellFormed (w : CommandWord) : Bool := opcodeRows.any (·.admits w)

/-- The constraints of R27 on `STEP_TABLE`, each of which "a model … must check": 89 entries, all positive, non-decreasing
(not strictly: C1), entry 0 = 7, entry 88 = 32767. -/
def Config.wellFormed (cfg : Config) : Bool :=
  cfg.stepTable.length == 89
    && cfg.stepTable.all (0 < ·)
    && (List.range 88).all (fun i => cfg.stepTable.getD i 0 ≤ cfg.stepTable.getD (i + 1) 0)
    && cfg.stepTable.getD 0 0 == 7
    && cfg.stepTable.getD 88 0 == 32767

end Sys2Proof
end

