-- ==== Sys2Proof/Decode.lean ====
section
/-! DEFINITION. The decoder of R67, total on every 36-bit word and refusing by name, and the encoder of R62 to R65. -/

namespace Sys2Proof

/-- Why a word spells no command (R151's refusal reasons). -/
inductive DecodeError where
  /-- OP is 0x0 or 0x5..0xF (R61, R67). -/
  | reservedOpcode
  /-- A bit that must be zero is one (R63, R64, R65, R67). -/
  | reservedBitsSet
  deriving DecidableEq, Repr

/-- OP, `cmd[35:32]` (R60). -/
def opField (w : CommandWord) : BitVec 4 := w.extractLsb' 32 4

/-- PAYLOAD, `cmd[31:0]` (R60). -/
def payloadField (w : CommandWord) : BitVec 32 := w.extractLsb' 0 32

/-- L, `cmd[31:16]` (R62). -/
def leftField (w : CommandWord) : Sample := w.extractLsb' 16 16

/-- R, `cmd[15:0]` (R62). -/
def rightField (w : CommandWord) : Sample := w.extractLsb' 0 16

/-- B, `cmd[7:0]` (R63). -/
def byteField (w : CommandWord) : CodeByte := w.extractLsb' 0 8

/-- The bits of DECODE_BYTE that must be zero, `cmd[31:8]` (R63). -/
def decReservedField (w : CommandWord) : BitVec 24 := w.extractLsb' 8 24

/-- The `decode` function of R67. -/
def decode (w : CommandWord) : Except DecodeError Instr :=
  if opField w = 0x1#4 then .ok (.enc (leftField w) (rightField w))
  else if opField w = 0x2#4 then
    if decReservedField w = 0#24 then .ok (.dec (byteField w)) else .error .reservedBitsSet
  else if opField w = 0x3#4 then
    if payloadField w = 0#32 then .ok .rstEnc else .error .reservedBitsSet
  else if opField w = 0x4#4 then
    if payloadField w = 0#32 then .ok .rstDec else .error .reservedBitsSet
  else .error .reservedOpcode

/-- The command word of a command, from the patterns of R62 to R65. -/
def encode (i : Instr) : CommandWord :=
  match i with
  | .enc l r => 0x1#4 ++ l ++ r
  | .dec b => 0x2#4 ++ 0#24 ++ b
  | .rstEnc => 0x300000000#36
  | .rstDec => 0x400000000#36

/-- The command word whose bits are `w`, taken as `nbits` bits; `none` where a bit above bit 35 is set, since no command
word has one (R60, R70; log 8). -/
def tableWord (nbits w : Nat) : Option CommandWord :=
  if w % 2 ^ nbits < 2 ^ 36 then some (BitVec.ofNat 36 (w % 2 ^ nbits)) else none

/-- What the decoder reads from the word that the opcode table numbers `w`; `none` where it refuses. -/
def decodeTableWord (nbits w : Nat) : Option Instr :=
  match tableWord nbits w with
  | none => none
  | some c =>
    match decode c with
    | .ok i => some i
    | .error _ => none

end Sys2Proof
end

