-- ==== Sys2Proof/Machine/Operands.lean ====
section
/-! DEFINITION. Operand assembly (R10, R66), nibbles (R69, R121) and the words a response is made of (R68, R101, R122). -/

namespace Sys2Proof.Machine

/-- `sext_16` of a sample field, as an exact integer in [-32768, 32767] (R10, R66). -/
def sampleValue (s : Sample) : Int := s.toInt

/-- `enc16(x)`, the 16-bit pattern of `x` (R10). -/
def enc16 (x : Int) : Sample := BitVec.ofInt 16 x

/-- The left code, the high nibble `b[7:4]` (R69, R121). -/
def leftCode (b : CodeByte) : Code := b.extractLsb' 4 4

/-- The right code, the low nibble `b[3:0]` (R69, R121). -/
def rightCode (b : CodeByte) : Code := b.extractLsb' 0 4

/-- `(rightCode << 4) | rightCode`: both nibbles carry the right code (R101). -/
def packByte (c : Code) : CodeByte := (c.setWidth 8 <<< 4) ||| c.setWidth 8

/-- The response of ENCODE_PAIR: the byte, zero-extended (R68, R100). -/
def encodeResponse (b : CodeByte) : ResponseWord := b.setWidth 32

/-- The response of DECODE_BYTE: left sample in [31:16], right sample in [15:0] (R68, R120, R122). -/
def decodeResponse (left right : Sample) : ResponseWord := left ++ right

/-- The byte a host reads from a response of ENCODE_PAIR, `response[7:0]` (R104). -/
def responseByte (w : ResponseWord) : CodeByte := w.extractLsb' 0 8

/-- The left sample a host reads from a response of DECODE_BYTE, `response[31:16]` (R124). -/
def responseLeft (w : ResponseWord) : Sample := w.extractLsb' 16 16

/-- The right sample a host reads from a response of DECODE_BYTE, `response[15:0]` (R124). -/
def responseRight (w : ResponseWord) : Sample := w.extractLsb' 0 16

end Sys2Proof.Machine
end

