-- ==== Sys2Proof/Machine/State.lean ====
section
/-! DEFINITION. The state of one ADPCM codec core (R20, R21), the channels of its interface (R32), the reasons a step can
stop (R151, R152) and the state after hardware reset (R31, R170, R171). -/

namespace Sys2Proof.Machine

/-- A channel-state register (R21): a 16-bit two's-complement predictor and a 7-bit unsigned step index. -/
structure Channel where
  predicted : Sample
  stepIndex : StepIndex
  deriving DecidableEq, Repr

/-- The initial stream condition, `{predicted: 0, stepIndex: 0}` (R31). -/
def Channel.zero : Channel := { predicted := 0#16, stepIndex := 0#7 }

/-- One thing the host can do to the core (R6, R32). Events land between commands, never inside one (R46, R172). -/
inductive HostEvent where
  /-- Issue a command word on the command channel (R32 item 1). -/
  | command (w : CommandWord)
  /-- Assert the hardware reset input (R32 item 3, R170). -/
  | hardwareReset
  /-- Lose power and restore it (R163; log 9). -/
  | powerCycle
  /-- Take the oldest undelivered response from the response channel (R32 item 2; log 3). -/
  | takeResponse
  deriving DecidableEq, Repr

/-- The machine. The first four fields are the whole architectural state (R20); the rest is the interface of R32, which a
step needs to be a function of a state. -/
structure State where
  /-- ENC_L (R21). -/
  encL : Channel
  /-- ENC_R (R21). -/
  encR : Channel
  /-- DEC_L (R21). -/
  decL : Channel
  /-- DEC_R (R21). -/
  decR : Channel
  /-- What the host has still to do, oldest first: its finite list of commands (R182) and its other events (log 2). -/
  input : List HostEvent
  /-- Responses on the response channel that the host has not got yet, oldest first (R32, R172; log 3). -/
  undelivered : List ResponseWord
  /-- Responses the host has got, oldest first (R182; log 3). -/
  delivered : List ResponseWord
  /-- The MODEL's own field: how many draws of `Config.responseLost` the run has used (R172; log 4). -/
  draws : Nat
  /-- The MODEL's own field: which stream of `Config.responseLost` this core's draws come from, so that cores side by side draw
  apart (R161, R172; log 4). -/
  drawStream : Nat
  deriving DecidableEq, Repr

/-- The machine right after hardware reset (R31, R170, R171): the four registers at `{0, 0}`, nothing on any channel. The
host's events are placed from outside (log 7). -/
def State.reset : State :=
  { encL := .zero, encR := .zero, decL := .zero, decR := .zero,
    input := [], undelivered := [], delivered := [], draws := 0, drawStream := 0 }

/-- The one fault of the spec. -/
inductive Fault where
  /-- `Fault(BadStepIndex)` (R26, R152): raised by ENCODE_PAIR and DECODE_BYTE when a register they read holds a step index
  of 89..127, before anything is written. Safe: the core takes no further command in such a run, and no run from reset
  reaches it (R25). -/
  | badStepIndex
  deriving DecidableEq, Repr

/-- Why the model gives a word no meaning. -/
inductive Refusal where
  /-- Raised by an arm of `exec` whose command has no meaning yet. Safe: nothing is claimed of it. No arm of this model
  raises it. -/
  | notModelled (mnemonic : String)
  /-- Raised by `step` on a word whose OP is reserved (R67, R151). Safe: the run carries the refusal to its end (log 5). -/
  | reservedOpcode
  /-- Raised by `step` on a word with a reserved bit set (R67, R151). Safe: the run carries the refusal to its end (log 5). -/
  | reservedBitsSet
  deriving DecidableEq, Repr

end Sys2Proof.Machine
end

