-- ==== Sys2Proof/Machine/Ops.lean ====
section
/-! DEFINITION. The operations the meanings and the step share: exact arithmetic (R9), the response channel (R32, R68), the
reset of a direction (R140, R141), the hardware reset (R170, R172) and the next event.

There is no operation that takes an exception and none that returns from one: the core has no trap mechanism (R156, R157). -/

namespace Sys2Proof.Machine

/-- `clamp(v, lo, hi)`: saturation, never wrap-around (R9). -/
def clamp (v lo hi : Int) : Int := if v < lo then lo else if hi < v then hi else v

/-- `tdiv(a, b)`, for `b > 0`: integer division truncating toward zero (R9). -/
def tdiv (a b : Int) : Int := Int.tdiv a b

/-- `respond(w)`: the core puts a response on the response channel, behind the earlier ones (R11, R32, R48). -/
def State.respond (s : State) (w : ResponseWord) : State :=
  { s with undelivered := s.undelivered ++ [w] }

/-- The host takes the oldest undelivered response (R32, R48); with none there, nothing happens (log 3). -/
def State.deliverOldest (s : State) : State :=
  match s.undelivered with
  | [] => s
  | w :: ws => { s with undelivered := ws, delivered := s.delivered ++ [w] }

/-- The encode direction at its initial stream condition (R140). -/
def State.zeroEncoder (s : State) : State := { s with encL := .zero, encR := .zero }

/-- The decode direction at its initial stream condition (R141). -/
def State.zeroDecoder (s : State) : State := { s with decL := .zero, decR := .zero }

/-- Which of the undelivered responses the host still gets when reset is asserted, in order: each is a draw (R172; log 4).
`k` is the core's draw stream and `n` the number of draws used so far. -/
def survivors (k n : Nat) (ws : List ResponseWord) : List ResponseWord :=
  match ws with
  | [] => []
  | w :: rest => if Config.responseLost k n then survivors k (n + 1) rest else w :: survivors k (n + 1) rest

/-- HARDWARE_RESET (R170): the four registers at `{0, 0}`, the tables untouched, no response. Every undelivered response is
delivered now or lost (R172). The host's events, and what it has already got, are not the core's and stay. -/
def State.hardwareReset (s : State) : State :=
  { s with
    encL := .zero, encR := .zero, decL := .zero, decR := .zero
    undelivered := []
    delivered := s.delivered ++ survivors s.drawStream s.draws s.undelivered
    draws := s.draws + s.undelivered.length }

/-- The core with its draws taken from stream `k` (DESIGN CHOICE, log 4): nothing that the hardware has is changed. -/
def State.onDrawStream (s : State) (k : Nat) : State := { s with drawStream := k }

/-- Power lost and restored: "the core is in the hardware-reset state" (R163); an undelivered response is a draw here too
(log 9). -/
def State.powerCycle (s : State) : State := s.hardwareReset

/-- The host's next event and the state without it. -/
def State.nextEvent (s : State) : Option (HostEvent × State) :=
  match s.input with
  | [] => none
  | e :: rest => some (e, { s with input := rest })

/-- The host does these events, in order, before every event it still had to come. -/
def State.scheduleFirst (s : State) (events : List HostEvent) : State := { s with input := events ++ s.input }

/-- The host issues one more command word, before every event it still had to come. -/
def State.issue (s : State) (w : CommandWord) : State := s.scheduleFirst [.command w]

/-- No event is left: the response channel delivers what it holds, one response a step, and then the core waits, unchanged
(R182; log 6). -/
def State.idle (s : State) : State := s.deliverOldest

end Sys2Proof.Machine
end

