-- ==== Sys2Proof/Machine/Tables.lean ====
section
/-! DEFINITION. The two read-only tables (R27, R28) and their lookups STEP and ADJ (R11, R41, R42). -/

namespace Sys2Proof.Machine

/-- The default `STEP_TABLE` that "this hardware takes" (R27, D10). PRESUMED (log 1): the spec takes entries 1..87 from
general knowledge; only entries 0 and 88 are the source's. The rows are those of R27's table. -/
def defaultStepTable : List Nat :=
  [7, 8, 9, 10, 11, 12, 13, 14] ++
  [16, 17, 19, 21, 23, 25, 28, 31] ++
  [34, 37, 41, 45, 50, 55, 60, 66] ++
  [73, 80, 88, 97, 107, 118, 130, 143] ++
  [157, 173, 190, 209, 230, 253, 279, 307] ++
  [337, 371, 408, 449, 494, 544, 598, 658] ++
  [724, 796, 876, 963, 1060, 1166, 1282, 1411] ++
  [1552, 1707, 1878, 2066, 2272, 2499, 2749, 3024] ++
  [3327, 3660, 4026, 4428, 4871, 5358, 5894, 6484] ++
  [7132, 7845, 8630, 9493, 10442, 11487, 12635, 13899] ++
  [15289, 16818, 18500, 20350, 22385, 24623, 27086, 29794] ++
  [32767]

/-- The configuration of this hardware (R27). -/
def hardware : Config := { stepTable := defaultStepTable }

/-- `INDEX_ADJ`, given literally (R28) and taken as written (I5). -/
def indexAdjTable : List Int :=
  [8, 6, 4, 2, -1, -1, -1, -1, -1, -1, -1, -1, 2, 4, 6, 8]

/-- `STEP(i)`, entry `i` of the step-size ROM (R11, R41, R80). The default 0 is never read: the channel steps look up an
index of at most 88 (R26), and a table that meets R27 has 89 entries. -/
def stepSize (cfg : Config) (i : StepIndex) : Nat := cfg.stepTable.getD i.toNat 0

/-- `ADJ(c)`, entry `c` of the index-adjustment ROM (R11, R42). Every code is a valid index. -/
def adj (c : Code) : Int := indexAdjTable.getD c.toNat 0

end Sys2Proof.Machine
end

