-- ==== Sys2Proof/Machine/Datapath.lean ====
section
/-! DEFINITION. The shared datapath of 40_datapath.md: quantizer (R81), reconstruction term (R83), predictor (R84), step-index
adaptation (R85) and the two channel steps (R88, R89). All arithmetic is exact (R9, R86): nothing is narrowed before its clamp. -/

namespace Sys2Proof.Machine

/-- The quantizer (R81): `clamp(tdiv((s - p) * 4 + step * 8, step), 0, 15)`. -/
def quantize (s p : Sample) (step : Nat) : Code :=
  BitVec.ofInt 4 (clamp (tdiv ((sampleValue s - sampleValue p) * 4 + step * 8) step) 0 15)

/-- The reconstruction term (R83): `((c * step) >> 2) - ((15 * step) >> 3)`. -/
def delta (c : Code) (step : Nat) : Int :=
  (((c.toNat * step) >>> 2 : Nat) : Int) - (((15 * step) >>> 3 : Nat) : Int)

/-- The predictor update (R84): `clamp(p + delta(c, step), -32768, 32767)`. -/
def predict (p : Sample) (c : Code) (step : Nat) : Sample :=
  enc16 (clamp (sampleValue p + delta c step) (-32768) 32767)

/-- The step-index update (R85): `clamp(i + ADJ(c), 0, 88)`. -/
def adapt (i : StepIndex) (c : Code) : StepIndex :=
  BitVec.ofInt 7 (clamp ((i.toNat : Int) + adj c) 0 88)

/-- The channel after a sample whose code is `c`: predictor and index both updated from the old index's step (R80, R84, R85). -/
def Channel.advance (cfg : Config) (st : Channel) (c : Code) : Channel :=
  { predicted := predict st.predicted c (stepSize cfg st.stepIndex)
    stepIndex := adapt st.stepIndex c }

/-- EncStep (R88). -/
def encStep (cfg : Config) (s : Sample) (st : Channel) : Except Fault (Code × Channel) :=
  if 88 < st.stepIndex.toNat then .error .badStepIndex
  else
    let code := quantize s st.predicted (stepSize cfg st.stepIndex)
    .ok (code, st.advance cfg code)

/-- DecStep (R89): the output sample is the updated predictor. -/
def decStep (cfg : Config) (c : Code) (st : Channel) : Except Fault (Sample × Channel) :=
  if 88 < st.stepIndex.toNat then .error .badStepIndex
  else
    let st' := st.advance cfg c
    .ok (st'.predicted, st')

end Sys2Proof.Machine
end

