-- ==== Sys2Proof/Machine/Decoder.lean ====
section
/-! DEFINITION. The decode family (42_decode.md): DECODE_BYTE. -/

namespace Sys2Proof.Machine

/-- DECODE_BYTE over any step-size table (R120): both lanes' checks and steps come before any write (R152, R155). -/
def decodeByte (cfg : Config) (b : CodeByte) (s : State) : Host.Outcome State Fault Refusal :=
  match decStep cfg (leftCode b) s.decL with
  | .error f => .fault f
  | .ok (leftOut, decL') =>
    match decStep cfg (rightCode b) s.decR with
    | .error f => .fault f
    | .ok (rightOut, decR') =>
      .next (State.respond { s with decL := decL', decR := decR' } (decodeResponse leftOut rightOut))

/-- `dec B`: DECODE_BYTE on this hardware (R120). -/
def execDec (b : CodeByte) (s : State) : Host.Outcome State Fault Refusal :=
  decodeByte hardware b s

end Sys2Proof.Machine
end

