-- ==== Sys2Proof/Machine/Encode.lean ====
section
/-! DEFINITION. The encode family (41_encode.md): ENCODE_PAIR. -/

namespace Sys2Proof.Machine

/-- ENCODE_PAIR over any step-size table (R100): both lanes' checks and steps come before any write (R152, R155); the left
lane runs although its code is discarded (R101, R102). -/
def encodePair (cfg : Config) (left right : Sample) (s : State) : Host.Outcome State Fault Refusal :=
  match encStep cfg left s.encL with
  | .error f => .fault f
  | .ok (_, encL') =>
    match encStep cfg right s.encR with
    | .error f => .fault f
    | .ok (rightCode, encR') =>
      .next (State.respond { s with encL := encL', encR := encR' } (encodeResponse (packByte rightCode)))

/-- `enc L, R`: ENCODE_PAIR on this hardware (R100). -/
def execEnc (left right : Sample) (s : State) : Host.Outcome State Fault Refusal :=
  encodePair hardware left right s

end Sys2Proof.Machine
end

