-- ==== Sys2Proof/Machine/Resets.lean ====
section
/-! DEFINITION. The reset family (43_reset.md): RESET_ENCODER and RESET_DECODER. Neither has a failure mode or a response. -/

namespace Sys2Proof.Machine

/-- `rst.enc`: RESET_ENCODER (R140), valid from any state. -/
def execRstEnc (s : State) : Host.Outcome State Fault Refusal := .next s.zeroEncoder

/-- `rst.dec`: RESET_DECODER (R141), valid from any state. -/
def execRstDec (s : State) : Host.Outcome State Fault Refusal := .next s.zeroDecoder

end Sys2Proof.Machine
end

