-- ==== Sys2Proof/Machine/Dispatch.lean ====
section
/-! DEFINITION. One arm for each command (R61). -/

namespace Sys2Proof.Machine

/-- What a command does to the machine. -/
def exec (i : Instr) (s : State) : Host.Outcome State Fault Refusal :=
  match i with
  | .enc left right => Sys2Proof.Machine.execEnc left right s
  | .dec byte => Sys2Proof.Machine.execDec byte s
  | .rstEnc => Sys2Proof.Machine.execRstEnc s
  | .rstDec => Sys2Proof.Machine.execRstDec s

end Sys2Proof.Machine
end

