-- ==== Sys2Proof/Machine/Fetch.lean ====
section
/-! DEFINITION. Taking a command word from the command channel: decode it (R67), refuse a reserved word by name (R151), run any
other (R150, R155). Also the word that stands for an opcode-table number. -/

namespace Sys2Proof.Machine

/-- The refusal of R151 that a decode error is. -/
def refusalOf (e : DecodeError) : Refusal :=
  match e with
  | .reservedOpcode => .reservedOpcode
  | .reservedBitsSet => .reservedBitsSet

/-- One command of the command channel, an atomic step (R48): done, refused or faulted (R150). `s` is the state with the
command taken off the channel. -/
def runCommand (w : CommandWord) (s : State) : Host.Outcome State Fault Refusal :=
  match decode w with
  | .ok i => exec i s
  | .error e => .refused (refusalOf e)

/-- One event of the host. -/
def runEvent (e : HostEvent) (s : State) : Host.Outcome State Fault Refusal :=
  match e with
  | .command w => runCommand w s
  | .hardwareReset => .next s.hardwareReset
  | .powerCycle => .next s.powerCycle
  | .takeResponse => .next s.deliverOldest

/-- The command word at the front of the command channel that the table numbers `w` (log 8). -/
def fetchWord (nbits w : Nat) : CommandWord := BitVec.ofNat 36 (w % 2 ^ nbits)

end Sys2Proof.Machine
end

