-- ==== Sys2Proof/Machine/Step.lean ====
section
/-! DEFINITION. One step of the machine: the host's next event, or waiting for one. -/

namespace Sys2Proof.Machine

/-- One step. Each event is one atomic step (R46, R48); with no event left the machine is idle (log 6). -/
def step (s : State) : Host.Outcome State Fault Refusal :=
  match s.nextEvent with
  | none => .next s.idle
  | some (e, s') => runEvent e s'

/-- The word numbered `w` issued before everything the host still had to do, so that the next step runs it (log 7). -/
def State.withFetchWord (s : State) (nbits w : Nat) : State := s.issue (fetchWord nbits w)

end Sys2Proof.Machine
end

