-- ==== Sys2Proof/Machine/Assembler.lean ====
section
/-! DEFINITION. Assembler text (R71, D24): one command per line, lower-case mnemonics, operands separated by commas, `;` starts a
comment; an operand outside its range is an assembly error, not a command. Text is a list of characters. What R71 leaves open
(blanks, letter case of hex digits, digit counts) is log 10. -/

namespace Sys2Proof.Machine

/-- What one line of text is. -/
inductive Assembled where
  /-- A command. -/
  | command (i : Instr)
  /-- Nothing but blanks and a comment. -/
  | blank
  /-- An assembly error (R71). -/
  | error
  deriving DecidableEq, Repr

/-- A blank between words (log 10). -/
def isBlank (c : Char) : Bool := c == ' ' || c == '\t'

/-- The text without blanks at either end. -/
def trim (cs : List Char) : List Char := ((cs.dropWhile isBlank).reverse.dropWhile isBlank).reverse

/-- The text up to a comment (R71). -/
def stripComment (cs : List Char) : List Char := cs.takeWhile (· != ';')

/-- The pieces of a text between its commas (R71). -/
def splitCommas (cs : List Char) : List (List Char) :=
  match cs with
  | [] => [[]]
  | c :: rest =>
    if c == ',' then [] :: splitCommas rest
    else
      match splitCommas rest with
      | [] => [[c]]
      | p :: ps => (c :: p) :: ps

/-- The value of a hexadecimal digit, either letter case (log 10). -/
def hexDigitValue (c : Char) : Option Nat :=
  if '0' ≤ c ∧ c ≤ '9' then some (c.toNat - '0'.toNat)
  else if 'a' ≤ c ∧ c ≤ 'f' then some (c.toNat - 'a'.toNat + 10)
  else if 'A' ≤ c ∧ c ≤ 'F' then some (c.toNat - 'A'.toNat + 10)
  else none

/-- The value of a decimal digit. -/
def decDigitValue (c : Char) : Option Nat :=
  if '0' ≤ c ∧ c ≤ '9' then some (c.toNat - '0'.toNat) else none

/-- The number a list of digits spells after what has been read so far. -/
def readDigits (base : Nat) (digit : Char → Option Nat) (sofar : Nat) (cs : List Char) : Option Nat :=
  match cs with
  | [] => some sofar
  | c :: rest =>
    match digit c with
    | none => none
    | some d => readDigits base digit (base * sofar + d) rest

/-- An unsigned decimal number of one digit or more. -/
def readDecimal (cs : List Char) : Option Nat :=
  match cs with
  | [] => none
  | c :: rest => readDigits 10 decDigitValue 0 (c :: rest)

/-- A hexadecimal number of exactly `n` digits (log 10). -/
def readHex (n : Nat) (cs : List Char) : Option Nat :=
  if cs.length = n then readDigits 16 hexDigitValue 0 cs else none

/-- A sample operand (R71): "signed decimal in [-32768, 32767] or 16-bit hex `0x....` (pattern taken as two's complement)". -/
def readSample (cs : List Char) : Option Sample :=
  match cs with
  | '0' :: 'x' :: ds =>
    match readHex 4 ds with
    | some v => some (BitVec.ofNat 16 v)
    | none => none
  | '-' :: ds =>
    match readDecimal ds with
    | some v => if v ≤ 32768 then some (BitVec.ofInt 16 (-(v : Int))) else none
    | none => none
  | ds =>
    match readDecimal ds with
    | some v => if v ≤ 32767 then some (BitVec.ofNat 16 v) else none
    | none => none

/-- A byte operand (R71): "B in [0, 255], decimal or `0x..`". -/
def readByte (cs : List Char) : Option CodeByte :=
  match cs with
  | '0' :: 'x' :: ds =>
    match readHex 2 ds with
    | some v => some (BitVec.ofNat 8 v)
    | none => none
  | ds =>
    match readDecimal ds with
    | some v => if v ≤ 255 then some (BitVec.ofNat 8 v) else none
    | none => none

/-- The operands of ENCODE_PAIR. -/
def assembleEnc (operands : List (List Char)) : Assembled :=
  match operands with
  | [l, r] =>
    match readSample l, readSample r with
    | some left, some right => .command (.enc left right)
    | _, _ => .error
  | _ => .error

/-- The operand of DECODE_BYTE. -/
def assembleDec (operands : List (List Char)) : Assembled :=
  match operands with
  | [b] =>
    match readByte b with
    | some byte => .command (.dec byte)
    | none => .error
  | _ => .error

/-- One line of assembler text (R71). -/
def assembleLine (line : List Char) : Assembled :=
  let text := trim (stripComment line)
  let mnemonic := text.takeWhile (fun c => !isBlank c)
  let rest := trim (text.dropWhile (fun c => !isBlank c))
  if text = [] then .blank
  else if mnemonic = ['e', 'n', 'c'] then assembleEnc ((splitCommas rest).map trim)
  else if mnemonic = ['d', 'e', 'c'] then assembleDec ((splitCommas rest).map trim)
  else if mnemonic = ['r', 's', 't', '.', 'e', 'n', 'c'] then
    if rest = [] then .command .rstEnc else .error
  else if mnemonic = ['r', 's', 't', '.', 'd', 'e', 'c'] then
    if rest = [] then .command .rstDec else .error
  else .error

/-- The commands of a text, line by line; `none` where a line is an assembly error. -/
def assembleProgram (lines : List (List Char)) : Option (List Instr) :=
  match lines with
  | [] => some []
  | line :: rest =>
    match assembleLine line, assembleProgram rest with
    | .command i, some is => some (i :: is)
    | .blank, some is => some is
    | _, _ => none

/-- The hexadecimal digit of a nibble. -/
def hexDigit (n : Code) : Char :=
  ['0', '1', '2', '3', '4', '5', '6', '7', '8', '9', 'a', 'b', 'c', 'd', 'e', 'f'].getD n.toNat '0'

/-- A byte as `0x..`. -/
def showByte (b : CodeByte) : List Char :=
  ['0', 'x', hexDigit (b.extractLsb' 4 4), hexDigit (b.extractLsb' 0 4)]

/-- A sample as `0x....`. -/
def showSample (s : Sample) : List Char :=
  ['0', 'x', hexDigit (s.extractLsb' 12 4), hexDigit (s.extractLsb' 8 4),
    hexDigit (s.extractLsb' 4 4), hexDigit (s.extractLsb' 0 4)]

/-- A command's assembler text, with its operands in hexadecimal (R71). -/
def showInstr (i : Instr) : List Char :=
  match i with
  | .enc l r => ['e', 'n', 'c', ' '] ++ showSample l ++ [',', ' '] ++ showSample r
  | .dec b => ['d', 'e', 'c', ' '] ++ showByte b
  | .rstEnc => ['r', 's', 't', '.', 'e', 'n', 'c']
  | .rstDec => ['r', 's', 't', '.', 'd', 'e', 'c']

end Sys2Proof.Machine
end

