-- ==== Sys2Proof/Machine/Platform.lean ====
section
/-! DEFINITION. Several cores, one for each stream (R34, R161): each has its own state and they share only the constant tables. The
draws of R172 are each core's own: core `k` draws from stream `k` of the free value, so no two cores share a draw and every
combination of outcomes is open (DESIGN CHOICE, log 4). -/

namespace Sys2Proof.Machine

/-- One step of core number `k` of a platform, which has no number of its own on the hardware (R161): `k` is the
model's name for it, and the draw stream it is put on (DESIGN CHOICE, log 4). `none` where there is no such core. -/
def stepCore (cores : List State) (k : Nat) : Option (Host.Outcome (List State) Fault Refusal) :=
  match cores[k]? with
  | none => none
  | some s =>
    match step (s.onDrawStream k) with
    | .next t => some (.next (cores.set k t))
    | .fault r => some (.fault r)
    | .refused r => some (.refused r)

end Sys2Proof.Machine
end

