-- ==== Sys2Proof/Machine/Streams.lean ====
section
/-! DEFINITION. The host's stream procedures as lists of commands (R72, R104, R124), the events that issue them, and how the
host reads their responses. -/

namespace Sys2Proof.Machine

/-- ENCODE's expansion (R72, R104): one ENCODE_PAIR for each left and right sample; an odd trailing sample is dropped (R106). -/
def encodeCommands (pcm : List Sample) : List Instr :=
  match pcm with
  | left :: right :: rest => .enc left right :: encodeCommands rest
  | [_] => []
  | [] => []

/-- DECODE's expansion (R72, R124): one DECODE_BYTE for each byte. -/
def decodeCommands (bytes : List CodeByte) : List Instr := bytes.map .dec

/-- RESET's expansion (R72). -/
def resetCommands : List Instr := [.rstEnc, .rstDec]

/-- Does the command return a response (R68)? -/
def hasResponse (i : Instr) : Bool :=
  match i with
  | .enc _ _ => true
  | .dec _ => true
  | .rstEnc => false
  | .rstDec => false

/-- The host issues the command and takes the response, if there is one (R104, R124). -/
def transaction (i : Instr) : List HostEvent :=
  if hasResponse i then [.command (encode i), .takeResponse] else [.command (encode i)]

/-- The events of a list of commands, in order (R48). -/
def transactions (is : List Instr) : List HostEvent := is.flatMap transaction

/-- ENCODE's result (R104): `out[i] = response[7:0]`. -/
def encodeOutput (ws : List ResponseWord) : List CodeByte := ws.map responseByte

/-- DECODE's result (R124): sample `2j` is the left and `2j + 1` the right sample of response `j` (R12). -/
def decodeOutput (ws : List ResponseWord) : List Sample :=
  ws.flatMap fun w => [responseLeft w, responseRight w]

/-- How the host serialises a 16-bit sample to bytes: the OPEN host parameter `PCM_BYTE_ORDER` (R43, D16), which no rule of the
core reads. The spec gives it no value, so there is no default. -/
inductive PcmByteOrder where
  | littleEndian
  | bigEndian
  deriving DecidableEq, Repr

/-- The sample that two consecutive bytes of a host buffer hold, under a byte order. -/
def hostSample (order : PcmByteOrder) (first second : CodeByte) : Sample :=
  match order with
  | .littleEndian => second ++ first
  | .bigEndian => first ++ second

end Sys2Proof.Machine
end

