-- ==== Sys2Proof/Machine/Run.lean ====
section
/-! DEFINITION. Many steps with the state kept beside the reason of a stop, the run of R182 with its end and its final state, and
the host's procedures ENCODE, DECODE and RESET run on a core (R72, R104, R124). -/

namespace Sys2Proof.Machine

/-- Why a run stopped early. -/
inductive Stop where
  | fault (r : Fault)
  | refused (r : Refusal)
  deriving DecidableEq, Repr

/-- A run so far: the state, as the last completed event left it, and the stop if there was one. -/
structure RunRecord where
  state : State
  stop : Option Stop
  deriving DecidableEq, Repr

/-- At most `n` steps, whether or not the run of R182 has come to its end before (that is `runToEnd`). A refusal or a fault ends
the run and leaves the state it met (R151, R152: nothing is written). -/
def run (n : Nat) (s : State) : RunRecord :=
  match n with
  | 0 => ⟨s, none⟩
  | n + 1 =>
    match step s with
    | .next t => run n t
    | .fault r => ⟨s, some (.fault r)⟩
    | .refused r => ⟨s, some (.refused r)⟩

/-- The refusal mark (R151): the run contains a refused command. -/
def RunRecord.refusalMark (r : RunRecord) : Bool :=
  match r.stop with
  | some (.refused _) => true
  | some (.fault _) => false
  | none => false

/-- Is the event a command of the host's command list (R182)? -/
def HostEvent.isCommand (e : HostEvent) : Bool :=
  match e with
  | .command _ => true
  | .hardwareReset => false
  | .powerCycle => false
  | .takeResponse => false

/-- The three conditions of R182: the host has issued its last command, every command has executed, and every response has been
delivered. Events that are no command may still be to come: they do not keep the run from ending. -/
def State.final (s : State) : Bool := !s.input.any HostEvent.isCommand && s.undelivered == []

/-- The end of a run (R182). A faulted run is never final (R152). -/
def RunRecord.final (r : RunRecord) : Bool := r.stop == none && r.state.final

/-- At most `n` steps of the run of R182, which goes no further than its end: in a final state no step is taken. -/
def runToEnd (n : Nat) (s : State) : RunRecord :=
  match n with
  | 0 => ⟨s, none⟩
  | n + 1 =>
    if s.final then ⟨s, none⟩
    else
      match step s with
      | .next t => runToEnd n t
      | .fault r => ⟨s, some (.fault r)⟩
      | .refused r => ⟨s, some (.refused r)⟩

/-- A number of steps in which every run from `s` comes to its end or stops: an event may make a response, and a response takes
one step more to be delivered. -/
def State.stepsToEnd (s : State) : Nat := 2 * s.input.length + s.undelivered.length

/-- The run of R182 from `s`, whole: to its end, or to the refusal or fault that stops it. -/
def endOfRun (s : State) : RunRecord := runToEnd s.stepsToEnd s

/-- The final state of a run (R182): "the four channel-state registers together with the list of responses". -/
structure FinalState where
  encL : Channel
  encR : Channel
  decL : Channel
  decR : Channel
  responses : List ResponseWord
  deriving DecidableEq, Repr

/-- The final state of a run, if the run has come to its end (R182). -/
def RunRecord.finalState (r : RunRecord) : Option FinalState :=
  if r.final then some ⟨r.state.encL, r.state.encR, r.state.decL, r.state.decR, r.state.delivered⟩ else none

/-- Run these events of the host from `s`, before every event it still had to come, to the last of them. -/
def runEvents (events : List HostEvent) (s : State) : RunRecord := run events.length (s.scheduleFirst events)

/-- Run a list of commands as host transactions from `s`, to the last one. Each response taken is the oldest there is, so it is
its own command's where nothing is undelivered at `s`. -/
def runCommands (is : List Instr) (s : State) : RunRecord := runEvents (transactions is) s

/-- The events of a host procedure that runs `is` from `s` and reads its responses. A procedure that issues anything first takes
every response that earlier commands left undelivered (DESIGN CHOICE, log 12: R72, R104 and R124 do not say when the host takes
those; the channel gives them first, R48), so each response that it then takes is its own command's. A procedure that issues
nothing does nothing (R106). -/
def procedureEvents (is : List Instr) (s : State) : List HostEvent :=
  match is with
  | [] => []
  | i :: rest => List.replicate s.undelivered.length .takeResponse ++ transactions (i :: rest)

/-- Run a host procedure from `s`. -/
def runProcedure (is : List Instr) (s : State) : RunRecord := runEvents (procedureEvents is s) s

/-- The responses, among those the host has got at the end of a run from `s`, of the commands of that run: they come behind every
response of an earlier command, delivered or undelivered at `s` (R48). -/
def RunRecord.responsesSince (r : RunRecord) (s : State) : List ResponseWord :=
  r.state.delivered.drop (s.delivered.length + s.undelivered.length)

/-- ENCODE (R72, R104): the run and the bytes it returns, which are those of its own commands' responses whatever was undelivered
at `s` (log 12). -/
def encodeProcedure (pcm : List Sample) (s : State) : RunRecord × List CodeByte :=
  let r := runProcedure (encodeCommands pcm) s
  (r, encodeOutput (r.responsesSince s))

/-- DECODE (R72, R124): the run and the samples it returns, which are those of its own commands' responses whatever was
undelivered at `s` (log 12). -/
def decodeProcedure (bytes : List CodeByte) (s : State) : RunRecord × List Sample :=
  let r := runProcedure (decodeCommands bytes) s
  (r, decodeOutput (r.responsesSince s))

/-- RESET (R72): it reads no response and takes none. -/
def resetProcedure (s : State) : RunRecord := runCommands resetCommands s

end Sys2Proof.Machine
end

