-- ==== Sys2Proof/Safety.lean ====
section
/-! DEFINITION. The terms claims use: the range invariant (R25), the formulas of 40_datapath.md over exact integers, two states
that differ only in the hidden left encode lane (R30), and the record of what each command of a list did (R50). -/

namespace Sys2Proof

open Sys2Proof.Machine

/-- The register holds a legal step index, 0..88 (R21, R25). -/
abbrev InRange (c : Channel) : Prop := c.stepIndex.toNat ≤ 88

/-- The range invariant (R25). The predictor's range holds by representation. -/
abbrev RangeInvariant (s : State) : Prop :=
  InRange s.encL ∧ InRange s.encR ∧ InRange s.decL ∧ InRange s.decR

/-- Saturation to `[lo, hi]`, as the least of the greatest: not the model's `clamp`. -/
def saturate (v lo hi : Int) : Int := max lo (min hi v)

/-- The code R81 gives, over exact integers: sign and magnitude division as R9 defines `tdiv`, then the clamp to [0, 15]. -/
def codeBySpec (s p step : Int) : Int :=
  let n := (s - p) * 4 + step * 8
  saturate (n.sign * ((n.natAbs / step.natAbs : Nat) : Int)) 0 15

/-- `delta(c, step)` of R83, with the shifts as floor divisions by 4 and 8. -/
def deltaBySpec (c step : Int) : Int := c * step / 4 - 15 * step / 8

/-- INDEX_ADJ of R28, by its shape: 8, 6, 4, 2 down from code 0 and up to code 15, and -1 for codes 4 to 11. -/
def adjBySpec (c : Int) : Int :=
  if c ≤ 3 then 8 - 2 * c else if c ≤ 11 then -1 else 2 * c - 22

/-- `after` is what R84 and R85 make of `before` when the code is `c` and the step is `step`. -/
def AdvancesTo (before : Channel) (c step : Int) (after : Channel) : Prop :=
  after.predicted.toInt = saturate (before.predicted.toInt + deltaBySpec c step) (-32768) 32767 ∧
  (after.stepIndex.toNat : Int) = saturate (before.stepIndex.toNat + adjBySpec c) 0 88

/-- The step a channel uses: the entry of the table at the index before the update (R80), over exact integers. -/
def stepBySpec (cfg : Config) (c : Channel) : Int := ((cfg.stepTable.getD c.stepIndex.toNat 0 : Nat) : Int)

/-- Two command words that spell ENCODE_PAIR with the same right sample, or are equal. -/
def sameButLeftWord (v w : CommandWord) : Prop :=
  v = w ∨ (opField v = 0x1#4 ∧ opField w = 0x1#4 ∧ rightField v = rightField w)

/-- Two events that differ at most in the left sample of an ENCODE_PAIR. -/
def sameButLeftEvent (e f : HostEvent) : Prop :=
  match e, f with
  | .command v, .command w => sameButLeftWord v w
  | .hardwareReset, .hardwareReset => True
  | .powerCycle, .powerCycle => True
  | .takeResponse, .takeResponse => True
  | _, _ => False

/-- Two states that differ at most in ENC_L and in left samples still to be encoded (R30). Their draws of R172 are the same ones
(log 4). -/
def SameButLeft (s t : State) : Prop :=
  InRange s.encL ∧ InRange t.encL ∧
  s.encR = t.encR ∧ s.decL = t.decL ∧ s.decR = t.decR ∧
  List.Forall₂ sameButLeftEvent s.input t.input ∧
  s.undelivered = t.undelivered ∧ s.delivered = t.delivered ∧ s.draws = t.draws ∧
  s.drawStream = t.drawStream

/-- Does the command belong to the encode direction (R23, R24)? -/
def Instr.encodeDirection (i : Instr) : Bool :=
  match i with
  | .enc _ _ => true
  | .dec _ => false
  | .rstEnc => true
  | .rstDec => false

/-- What a list of commands does, one after the other (R48): each command with the responses it made, and the state after the
last; `none` where one of them faults. -/
def execAll (is : List Instr) (s : State) : Option (List (Instr × List ResponseWord) × State) :=
  match is with
  | [] => some ([], s)
  | i :: rest =>
    match exec i s with
    | .next t =>
      match execAll rest t with
      | some (log, u) => some ((i, t.undelivered.drop s.undelivered.length) :: log, u)
      | none => none
    | .fault _ => none
    | .refused _ => none

end Sys2Proof
end

