-- ==== Sys2Proof/Certificates/Slice0/Obligations.lean ====
section
/-! DEFINITION. The statements for the provers. Rules the spec marks "[derived …]" or "[decision …]" are its own inferences and
choices: a statement that rests on one says so here and has basis "derived" in OBLIGATIONS.json. -/

open Sys2Proof Sys2Proof.Machine

/-! ### Tables -/

/-- The table this hardware takes meets R27's constraints. Its entries 1..87 are PRESUMED (log 1). -/
def Obligations.HardwareStepTableMeetsItsConstraints : Prop := hardware.wellFormed = true

/-- "every step satisfies 7 ≤ step ≤ 32767. So no division by zero can occur": the spec's own derivation at the end of R80, for
every table that meets R27. -/
def Obligations.EveryStepLiesBetween7And32767 : Prop :=
  ∀ (cfg : Config) (i : StepIndex), cfg.wellFormed = true → i.toNat ≤ 88 →
    7 ≤ stepSize cfg i ∧ stepSize cfg i ≤ 32767

/-- INDEX_ADJ is the literal of R28, its entries lie in -1..8, and (the spec's own derivation from the literal) it is
symmetric. -/
def Obligations.IndexAdjustmentsAreTheLiteral : Prop :=
  indexAdjTable = [8, 6, 4, 2, -1, -1, -1, -1, -1, -1, -1, -1, 2, 4, 6, 8] ∧
  ∀ c : Code, adj c = adjBySpec c.toNat ∧ -1 ≤ adj c ∧ adj c ≤ 8 ∧ adj c = adj (15#4 - c)

/-! ### Datapath -/

/-- R81, with `tdiv` written out as R9 defines it. -/
def Obligations.QuantizerIsTheTruncatedQuotientClamped : Prop :=
  ∀ (s p : Sample) (step : Nat), 0 < step →
    ((quantize s p step).toNat : Int) = codeBySpec s.toInt p.toInt step

/-- The closed form and the thresholds of R82, which the spec derives from R81. -/
def Obligations.QuantizerHasTheFloorClosedForm : Prop :=
  ∀ (s p : Sample) (step : Nat), 0 < step →
    let d := s.toInt - p.toInt
    let code := (quantize s p step).toNat
    (code : Int) = saturate (8 + Int.fdiv (4 * d) step) 0 15 ∧
    (code = 0 ↔ 4 * d < -7 * (step : Int)) ∧
    (code = 15 ↔ 7 * (step : Int) ≤ 4 * d) ∧
    ∀ c : Nat, 1 ≤ c → c ≤ 14 →
      (code = c ↔ ((c : Int) - 8) * step ≤ 4 * d ∧ 4 * d < ((c : Int) - 7) * step)

/-- R83: both shifts are floor divisions, by 4 and by 8, of non-negative products. -/
def Obligations.ReconstructionTermIsTheDifferenceOfFloors : Prop :=
  ∀ (c : Code) (step : Nat),
    0 ≤ (c.toNat : Int) * step ∧ 0 ≤ 15 * (step : Int) ∧ delta c step = deltaBySpec c.toNat step

/-- R84: the predictor saturates; the code is the clamped code of R81 in the encoder and the nibble of R121 in the decoder. -/
def Obligations.PredictorUpdateSaturates : Prop :=
  (∀ (p : Sample) (c : Code) (step : Nat),
    (predict p c step).toInt = saturate (p.toInt + deltaBySpec c.toNat step) (-32768) 32767) ∧
  (∀ (cfg : Config) (s : Sample) (st : Channel), InRange st →
    ∃ st', encStep cfg s st = .ok (quantize s st.predicted (stepSize cfg st.stepIndex), st') ∧
      st'.predicted =
        predict st.predicted (quantize s st.predicted (stepSize cfg st.stepIndex)) (stepSize cfg st.stepIndex)) ∧
  (∀ (cfg : Config) (b : CodeByte) (s : State), InRange s.decL → InRange s.decR →
    ∃ t, decodeByte cfg b s = .next t ∧
      t.decL.predicted = predict s.decL.predicted (leftCode b) (stepSize cfg s.decL.stepIndex) ∧
      t.decR.predicted = predict s.decR.predicted (rightCode b) (stepSize cfg s.decR.stepIndex))

/-- R85: the index saturates at 0 and 88 from a raw sum in [-1, 96], and the predictor of the same sample is computed with the
step of the old index. -/
def Obligations.StepIndexUpdateSaturates : Prop :=
  (∀ (i : StepIndex) (c : Code), i.toNat ≤ 88 →
    ((adapt i c).toNat : Int) = saturate (i.toNat + adjBySpec c.toNat) 0 88 ∧
    -1 ≤ (i.toNat : Int) + adj c ∧ (i.toNat : Int) + adj c ≤ 96) ∧
  (∀ (cfg : Config) (st : Channel) (c : Code),
    (st.advance cfg c).predicted = predict st.predicted c (stepSize cfg st.stepIndex) ∧
    (st.advance cfg c).stepIndex = adapt st.stepIndex c)

/-- The bound table of R86, which the spec derives for every step in [7, 32767]. -/
def Obligations.IntermediateValuesFitTwentyBits : Prop :=
  ∀ (s p : Sample) (c : Code) (i : StepIndex) (step : Nat), 7 ≤ step → step ≤ 32767 → i.toNat ≤ 88 →
    let d := s.toInt - p.toInt
    let n := d * 4 + step * 8
    (-65535 ≤ d ∧ d ≤ 65535) ∧ (-262140 ≤ d * 4 ∧ d * 4 ≤ 262140) ∧
    (56 ≤ step * 8 ∧ step * 8 ≤ 262136) ∧ (-262084 ≤ n ∧ n ≤ 524276) ∧
    (-37440 ≤ tdiv n step ∧ tdiv n step ≤ 37456) ∧
    c.toNat * step ≤ 491505 ∧ (c.toNat * step) >>> 2 ≤ 122876 ∧
    (105 ≤ 15 * step ∧ 15 * step ≤ 491505) ∧ (13 ≤ (15 * step) >>> 3 ∧ (15 * step) >>> 3 ≤ 61438) ∧
    (-61438 ≤ delta c step ∧ delta c step ≤ 61438) ∧
    (-94206 ≤ p.toInt + delta c step ∧ p.toInt + delta c step ≤ 94205) ∧
    (-1 ≤ (i.toNat : Int) + adj c ∧ (i.toNat : Int) + adj c ≤ 96)

/-- The sign properties of R87, which the spec derives from R83. -/
def Obligations.ReconstructionTermNeverVanishes : Prop :=
  (∀ step : Nat, 7 ≤ step → step ≤ 32767 →
    (∀ c d : Code, c.toNat ≤ d.toNat → delta c step ≤ delta d step) ∧
    delta 7#4 step < 0 ∧ 0 < delta 8#4 step ∧ (∀ c : Code, delta c step ≠ 0) ∧
    delta 8#4 step = ((step + 7) / 8 : Nat)) ∧
  (List.range 16).map (fun c => delta (BitVec.ofNat 4 c) 7) =
    [-13, -12, -10, -8, -6, -5, -3, -1, 1, 2, 4, 6, 8, 9, 11, 13] ∧
  (List.range 16).map (fun c => delta (BitVec.ofNat 4 c) 32767) =
    [-61438, -53247, -45055, -36863, -28671, -20480, -12288, -4096,
      4096, 12287, 20479, 28671, 36863, 45054, 53246, 61438] ∧
  delta 1#4 7 ≠ -delta 14#4 7

/-- R88, for every table. -/
def Obligations.EncoderChannelStep : Prop :=
  ∀ (cfg : Config) (s : Sample) (st : Channel), cfg.wellFormed = true →
    (¬ InRange st → encStep cfg s st = .error .badStepIndex) ∧
    (InRange st → ∃ (code : Code) (st' : Channel),
      encStep cfg s st = .ok (code, st') ∧
      (code.toNat : Int) = codeBySpec s.toInt st.predicted.toInt (stepBySpec cfg st) ∧
      AdvancesTo st code.toNat (stepBySpec cfg st) st')

/-- R89, for every table: the output sample is the updated predictor. -/
def Obligations.DecoderChannelStep : Prop :=
  ∀ (cfg : Config) (c : Code) (st : Channel),
    (¬ InRange st → decStep cfg c st = .error .badStepIndex) ∧
    (InRange st → ∃ st' : Channel,
      decStep cfg c st = .ok (st'.predicted, st') ∧ AdvancesTo st c.toNat (stepBySpec cfg st) st')

/-- The table-independent part of 90_conflicts.md C4 (and vector S1): at predictor 32767 and input 32767 the code is 8, the
predictor stays and the index falls by one, not below 0. -/
def Obligations.SaturatedPredictorHoldsWhileIndexDecays : Prop :=
  ∀ (cfg : Config) (st : Channel), cfg.wellFormed = true → InRange st → st.predicted = 0x7FFF#16 →
    ∃ st', encStep cfg 0x7FFF#16 st = .ok (8#4, st') ∧ st'.predicted = 0x7FFF#16 ∧
      st'.stepIndex.toNat = st.stepIndex.toNat - 1

/-! ### The four commands -/

/-- R100: encoding, pseudocode with the response of R101, and the fault; every other piece of state is kept. -/
def Obligations.EncodePairCommand : Prop :=
  (∀ l r : Sample, decode (0x1#4 ++ l ++ r) = .ok (.enc l r)) ∧
  (∀ (l r : Sample) (s : State), InRange s.encL → InRange s.encR →
    ∃ (t : State) (left right : Code),
      exec (.enc l r) s = .next t ∧
      (left.toNat : Int) = codeBySpec l.toInt s.encL.predicted.toInt (stepBySpec hardware s.encL) ∧
      (right.toNat : Int) = codeBySpec r.toInt s.encR.predicted.toInt (stepBySpec hardware s.encR) ∧
      AdvancesTo s.encL left.toNat (stepBySpec hardware s.encL) t.encL ∧
      AdvancesTo s.encR right.toNat (stepBySpec hardware s.encR) t.encR ∧
      t.undelivered = s.undelivered ++ [BitVec.ofNat 32 (16 * right.toNat + right.toNat)] ∧
      t.decL = s.decL ∧ t.decR = s.decR ∧
      t.input = s.input ∧ t.delivered = s.delivered ∧ t.draws = s.draws ∧ t.drawStream = s.drawStream) ∧
  (∀ (l r : Sample) (s : State), ¬ InRange s.encL ∨ ¬ InRange s.encR →
    exec (.enc l r) s = .fault .badStepIndex)

/-- R120: encoding, pseudocode with the response order of R122, and the fault; every other piece of state is kept. -/
def Obligations.DecodeByteCommand : Prop :=
  (∀ b : CodeByte, decode (0x2#4 ++ 0#24 ++ b) = .ok (.dec b)) ∧
  (∀ (b : CodeByte) (s : State), InRange s.decL → InRange s.decR →
    ∃ (t : State) (w : ResponseWord),
      exec (.dec b) s = .next t ∧
      AdvancesTo s.decL (b.toNat / 16 : Nat) (stepBySpec hardware s.decL) t.decL ∧
      AdvancesTo s.decR (b.toNat % 16 : Nat) (stepBySpec hardware s.decR) t.decR ∧
      t.undelivered = s.undelivered ++ [w] ∧
      w.extractLsb' 16 16 = t.decL.predicted ∧ w.extractLsb' 0 16 = t.decR.predicted ∧
      t.encL = s.encL ∧ t.encR = s.encR ∧
      t.input = s.input ∧ t.delivered = s.delivered ∧ t.draws = s.draws ∧ t.drawStream = s.drawStream) ∧
  (∀ (b : CodeByte) (s : State), ¬ InRange s.decL ∨ ¬ InRange s.decR →
    exec (.dec b) s = .fault .badStepIndex)

/-- R140: one word only, valid from any state, no response, nothing else changed; and the worked example. -/
def Obligations.ResetEncoderCommand : Prop :=
  (∀ w : CommandWord, decode w = .ok .rstEnc ↔ w = 0x300000000#36) ∧
  (∀ s : State, exec .rstEnc s =
    .next { s with encL := { predicted := 0#16, stepIndex := 0#7 }, encR := { predicted := 0#16, stepIndex := 0#7 } }) ∧
  (∀ s t : State, exec .rstEnc s = .next t →
    ∃ u, exec (.enc 1000#16 (-1000#16)) t = .next u ∧ u.undelivered = s.undelivered ++ [0x00000000#32])

/-- R141: one word only, valid from any state, no response, nothing else changed. -/
def Obligations.ResetDecoderCommand : Prop :=
  (∀ w : CommandWord, decode w = .ok .rstDec ↔ w = 0x400000000#36) ∧
  (∀ s : State, exec .rstDec s =
    .next { s with decL := { predicted := 0#16, stepIndex := 0#7 }, decR := { predicted := 0#16, stepIndex := 0#7 } })

/-- Items 1 and 2 of R142, which the spec derives: each reset command is idempotent, and the first byte of a stream after
RESET_ENCODER is the one after hardware reset. -/
def Obligations.ResetCommandsRebaseTheirDirection : Prop :=
  (∀ s t : State, exec .rstEnc s = .next t → exec .rstEnc t = .next t) ∧
  (∀ s t : State, exec .rstDec s = .next t → exec .rstDec t = .next t) ∧
  (∀ (l r : Sample) (s t : State), exec .rstEnc s = .next t →
    ∃ (u v : State) (w : ResponseWord), exec (.enc l r) t = .next u ∧ exec (.enc l r) State.reset = .next v ∧
      u.undelivered = s.undelivered ++ [w] ∧ v.undelivered = [w] ∧ u.encL = v.encL ∧ u.encR = v.encR)

/-- The frame of every command (R23, R24, R68): one response or none, at the end of the response channel; the other direction,
the host's events and what it has received are kept. -/
def Obligations.EachCommandKeepsEverythingElse : Prop :=
  ∀ (i : Instr) (s t : State), exec i s = .next t →
    t.input = s.input ∧ t.delivered = s.delivered ∧ t.draws = s.draws ∧ t.drawStream = s.drawStream ∧
    (i.encodeDirection = false → t.encL = s.encL ∧ t.encR = s.encR) ∧
    (i.encodeDirection = true → t.decL = s.decL ∧ t.decR = s.decR) ∧
    ∃ ws : List ResponseWord, t.undelivered = s.undelivered ++ ws ∧
      ws.length = if hasResponse i then 1 else 0

/-- R24: a command of one direction neither reads nor writes the other direction's registers. Two states that agree on the
direction a command belongs to agree on it after the command, and stop alike. -/
def Obligations.DirectionsAreDisjoint : Prop :=
  (∀ (l r : Sample) (s : State) (x y : Channel),
    (∀ f, exec (.enc l r) s = .fault f → exec (.enc l r) { s with decL := x, decR := y } = .fault f) ∧
    (∀ t, exec (.enc l r) s = .next t →
      t.decL = s.decL ∧ t.decR = s.decR ∧
      exec (.enc l r) { s with decL := x, decR := y } = .next { t with decL := x, decR := y })) ∧
  (∀ (b : CodeByte) (s : State) (x y : Channel),
    (∀ f, exec (.dec b) s = .fault f → exec (.dec b) { s with encL := x, encR := y } = .fault f) ∧
    (∀ t, exec (.dec b) s = .next t →
      t.encL = s.encL ∧ t.encR = s.encR ∧
      exec (.dec b) { s with encL := x, encR := y } = .next { t with encL := x, encR := y })) ∧
  (∀ s t : State, exec .rstEnc s = .next t → t.decL = s.decL ∧ t.decR = s.decR) ∧
  (∀ s t : State, exec .rstDec s = .next t → t.encL = s.encL ∧ t.encR = s.encR)

/-- R91, which the spec derives: no lane reads the other lane's state, input or code. -/
def Obligations.LanesAreIndependent : Prop :=
  (∀ (l r r' : Sample) (s t t' : State) (x : Channel),
    exec (.enc l r) s = .next t → exec (.enc l r') { s with encR := x } = .next t' → t.encL = t'.encL) ∧
  (∀ (l l' r : Sample) (s t t' : State) (x : Channel),
    exec (.enc l r) s = .next t → exec (.enc l' r) { s with encL := x } = .next t' →
      t.encR = t'.encR ∧ t.undelivered = t'.undelivered) ∧
  (∀ (b b' : CodeByte) (s t t' : State) (x : Channel), leftCode b = leftCode b' →
    exec (.dec b) s = .next t → exec (.dec b') { s with decR := x } = .next t' → t.decL = t'.decL) ∧
  (∀ (b b' : CodeByte) (s t t' : State) (x : Channel), rightCode b = rightCode b' →
    exec (.dec b) s = .next t → exec (.dec b') { s with decL := x } = .next t' → t.decR = t'.decR)

/-- R121: nibble extraction. -/
def Obligations.NibblesAreHighLeftLowRight : Prop :=
  ∀ b : CodeByte, (leftCode b).toNat = b.toNat / 16 ∧ (rightCode b).toNat = b.toNat % 16

/-- R26 and R152 (the spec's decision D12): exactly when a command faults; and no command is refused once decoded. -/
def Obligations.CommandsFaultExactlyOnABadIndexTheyRead : Prop :=
  ∀ (i : Instr) (s : State),
    ((∃ f, exec i s = .fault f) ↔
      ((∃ l r, i = .enc l r) ∧ (¬ InRange s.encL ∨ ¬ InRange s.encR)) ∨
      ((∃ b, i = .dec b) ∧ (¬ InRange s.decL ∨ ¬ InRange s.decR))) ∧
    ∀ r, exec i s ≠ .refused r

/-! ### Encoding -/

/-- Words written out from the patterns of R62 to R65 and from 95_test_vectors.md. -/
def Obligations.WrittenOutWordsDecode : Prop :=
  decode 0x10064FF9C#36 = .ok (.enc 100#16 (-100#16)) ∧
  decode 0x200000088#36 = .ok (.dec 0x88#8) ∧
  decode 0x300000000#36 = .ok .rstEnc ∧
  decode 0x400000000#36 = .ok .rstDec

/-- No bit of an encoding is dropped: decoding the word of a command gives the command, for every operand (R62 to R65, R67). -/
def Obligations.DecodeOfEncodeIsTheCommand : Prop :=
  ∀ i : Instr, decode (encode i) = .ok i

/-- A word that decodes is the word of what it decodes to: each command has one word (R62 to R67). -/
def Obligations.EncodeOfDecodeIsTheWord : Prop :=
  ∀ (w : CommandWord) (i : Instr), decode w = .ok i → encode i = w

/-- The decoder accepts exactly the words that match a row of the opcode table, and no two rows match one word. -/
def Obligations.AcceptedWordsAreTheOpcodeTableRows : Prop :=
  (∀ w : CommandWord, (∃ i, decode w = .ok i) ↔ CommandWord.wellFormed w = true) ∧
  ∀ w : CommandWord, opcodeRows.Pairwise fun a b => ¬ (a.admits w = true ∧ b.admits w = true)

/-- The reserved space of R67 with the reasons of R151 (the spec's decision D5). -/
def Obligations.ReservedWordsAreRefusedByReason : Prop :=
  ∀ w : CommandWord,
    (decode w = .error .reservedOpcode ↔ w.toNat / 2 ^ 32 = 0 ∨ 5 ≤ w.toNat / 2 ^ 32) ∧
    (decode w = .error .reservedBitsSet ↔
      (w.toNat / 2 ^ 32 = 2 ∧ w.toNat % 2 ^ 32 / 2 ^ 8 ≠ 0) ∨
      (w.toNat / 2 ^ 32 = 3 ∧ w.toNat % 2 ^ 32 ≠ 0) ∨ (w.toNat / 2 ^ 32 = 4 ∧ w.toNat % 2 ^ 32 ≠ 0))

/-- Assembler text and commands agree (R71, the spec's decision D24; the text forms are log 10). -/
def Obligations.AssemblingTheTextOfACommandGivesIt : Prop :=
  ∀ i : Instr, assembleLine (showInstr i) = .command i

/-! ### The step, the channels, reset -/

/-- A step on a command word is `exec` of what the word decodes to, with the word taken off the command channel; a word that
does not decode is refused by its reason (R48, R151, R155). -/
def Obligations.StepRunsTheDecodedCommand : Prop :=
  ∀ (s : State) (w : CommandWord) (rest : List HostEvent), s.input = .command w :: rest →
    (∀ i, decode w = .ok i → step s = exec i { s with input := rest }) ∧
    (decode w = .error .reservedOpcode → step s = .refused .reservedOpcode) ∧
    (decode w = .error .reservedBitsSet → step s = .refused .reservedBitsSet)

/-- The word that the opcode table numbers is run by the very next step (the model's choices of log 7 and log 8). -/
def Obligations.PlacedTableWordRunsNext : Prop :=
  ∀ (s : State) (nbits w : Nat) (i : Instr), decodeTableWord nbits w = some i →
    step (s.withFetchWord nbits w) = exec i s

/-- R151 (the spec's decision D5): a run that meets a reserved word keeps the refusal, and the state is what it was. The mark is
the run's stop (log 5). So it is of the run of R182, which then has no final state. -/
def Obligations.ReservedWordEndsTheRunWithItsMark : Prop :=
  ∀ (n : Nat) (s : State) (w : CommandWord) (rest : List HostEvent) (e : DecodeError),
    s.input = .command w :: rest → decode w = .error e →
    (run (n + 1) s).state = s ∧ (run (n + 1) s).refusalMark = true ∧ (run (n + 1) s).final = false ∧
    endOfRun s = run (n + 1) s ∧ (endOfRun s).finalState = none

/-- R152 with R182 (the spec's decisions D12 and D28): a run in which a command faults ends there with nothing written, is never
final, and carries no refusal mark. -/
def Obligations.FaultEndsTheRunUnfinished : Prop :=
  ∀ (s : State) (w : CommandWord) (i : Instr) (rest : List HostEvent) (f : Fault),
    s.input = .command w :: rest → decode w = .ok i → exec i { s with input := rest } = .fault f →
    endOfRun s = ⟨s, some (.fault f)⟩ ∧ (endOfRun s).final = false ∧ (endOfRun s).finalState = none ∧
    (endOfRun s).refusalMark = false

/-- R170 and R163 (the spec's decision D13; log 9): the reset input and a power cycle leave the registers as RESET_ENCODER and
RESET_DECODER do, from any state, and nothing undelivered. -/
def Obligations.HardwareResetZeroesEveryChannel : Prop :=
  ∀ (s : State) (rest : List HostEvent),
    s.input = .hardwareReset :: rest ∨ s.input = .powerCycle :: rest →
    ∃ t u v : State, step s = .next t ∧ exec .rstEnc s = .next u ∧ exec .rstDec u = .next v ∧
      t.encL = { predicted := 0#16, stepIndex := 0#7 } ∧ t.encR = { predicted := 0#16, stepIndex := 0#7 } ∧
      t.decL = { predicted := 0#16, stepIndex := 0#7 } ∧ t.decR = { predicted := 0#16, stepIndex := 0#7 } ∧
      v.encL = t.encL ∧ v.encR = t.encR ∧ v.decL = t.decL ∧ v.decR = t.decR ∧
      t.input = rest ∧ t.undelivered = []

/-- R172 (the spec's decision D14; log 4): at a hardware reset each undelivered response is delivered or lost, in order, as the
free value of its own draw, on the core's own stream, says, whatever that value is; and no draw is used twice. -/
def Obligations.ResetDrawsEachUndeliveredResponse : Prop :=
  ∀ (s : State) (rest : List HostEvent), s.input = .hardwareReset :: rest →
    ∃ (t : State) (kept : List ResponseWord), step s = .next t ∧
      t.delivered = s.delivered ++ kept ∧ kept.Sublist s.undelivered ∧
      kept = ((s.undelivered.zipIdx s.draws).filter (fun p => !Config.responseLost s.drawStream p.2)).map Prod.fst ∧
      t.undelivered = [] ∧ t.draws = s.draws + s.undelivered.length ∧ t.drawStream = s.drawStream

/-- R48, R32 (the spec's decision D7; log 3): outside a reset no response is lost, changed or overtaken, and a step makes at most
one. -/
def Obligations.ResponsesKeepCommandOrder : Prop :=
  ∀ s t : State, step s = .next t →
    s.input.head? ≠ some .hardwareReset → s.input.head? ≠ some .powerCycle →
    ∃ ws : List ResponseWord, ws.length ≤ 1 ∧
      t.delivered ++ t.undelivered = s.delivered ++ s.undelivered ++ ws ∧ s.delivered <+: t.delivered

/-- R34 and R161 (the spec's decision D26): a step of one core leaves every other core as it was, and is the step of its own
state, with its draws from its own stream (the model's choice, log 4). -/
def Obligations.CoresAreIsolated : Prop :=
  ∀ (cores cores' : List State) (k : Nat), stepCore cores k = some (.next cores') →
    (∀ j, j ≠ k → cores'[j]? = cores[j]?) ∧
    ∃ s t, cores[k]? = some s ∧ cores'[k]? = some t ∧ step (s.onDrawStream k) = .next t

/-! ### Whole-machine rules -/

/-- R31, R170: the range invariant holds after hardware reset. -/
def Obligations.ResetMeetsTheRangeInvariant : Prop := RangeInvariant State.reset

/-- R25, which the spec derives: every step keeps every step index in [0, 88], from every state that has it. -/
def Obligations.EveryStepKeepsTheRangeInvariant : Prop :=
  ∀ s t : State, RangeInvariant s → step s = .next t → RangeInvariant t

/-- R107, R123 and R150: under the range invariant a step completes unless the next word is reserved. -/
def Obligations.StepCompletesUnlessTheWordIsReserved : Prop :=
  ∀ s : State, RangeInvariant s →
    (∃ t, step s = .next t) ∨
    ∃ w rest, s.input = .command w :: rest ∧ CommandWord.wellFormed w = false ∧ ∃ r, step s = .refused r

/-- R182 (the spec's decision D28): a run is at its end exactly when no command is still to come and every response has been
delivered. It goes no further: a reset, a power cycle or a taking of a response that is still to come then neither keeps it from
ending nor changes its final state. -/
def Obligations.RunEndsWhenCommandsAreDoneAndResponsesDelivered : Prop :=
  ∀ s : State,
    (s.final = true ↔ (∀ w, HostEvent.command w ∉ s.input) ∧ s.undelivered = []) ∧
    ((∀ w, HostEvent.command w ∉ s.input) → s.undelivered = [] →
      ∀ n, runToEnd n s = ⟨s, none⟩ ∧
        (runToEnd n s).finalState = some ⟨s.encL, s.encR, s.decL, s.decR, s.delivered⟩)

/-- R182 with R181's finite completion (the spec's decisions D25 and D28; log 6): a run of legal words from a state in range comes to
its end, which is the first state with every command done and every response delivered, and that state is its final state. -/
def Obligations.RunsOfLegalWordsReachTheirEnd : Prop :=
  ∀ s : State, RangeInvariant s →
    (∀ w, HostEvent.command w ∈ s.input → CommandWord.wellFormed w = true) →
    ∃ n, n ≤ 2 * s.input.length + s.undelivered.length ∧ (run n s).final = true ∧
      (∀ k, k < n → (run k s).final = false) ∧ endOfRun s = run n s ∧
      (endOfRun s).finalState = some ⟨(run n s).state.encL, (run n s).state.encR, (run n s).state.decL,
        (run n s).state.decR, (run n s).state.delivered⟩

/-- R30 and R103, which the spec derives: what the host receives does not depend on ENC_L or on any left sample. Two runs of any
length over the same events but for left samples, under the same draws of R172 (log 4), stop alike and agree on everything but
ENC_L. -/
def Obligations.LeftSamplesNeverReachTheHost : Prop :=
  ∀ (n : Nat) (s t : State), SameButLeft s t →
    (run n s).stop = (run n t).stop ∧ SameButLeft (run n s).state (run n t).state

/-- R50, which the spec derives: what the commands of one direction do, and what they answer, does not depend on how the other
direction's commands are interleaved with them. -/
def Obligations.DirectionsMayInterleaveAnyWay : Prop :=
  ∀ (is : List Instr) (s : State), RangeInvariant s →
    ∃ log t elog te dlog td,
      execAll is s = some (log, t) ∧
      execAll (is.filter (·.encodeDirection)) s = some (elog, te) ∧
      execAll (is.filter (fun i => !i.encodeDirection)) s = some (dlog, td) ∧
      elog = log.filter (fun p => p.1.encodeDirection) ∧ dlog = log.filter (fun p => !p.1.encodeDirection) ∧
      te.encL = t.encL ∧ te.encR = t.encR ∧ td.decL = t.decL ∧ td.decR = t.decR

/-! ### Encoder and decoder together -/

/-- R90, which the spec derives from R88 and R89: the decoder step on the encoder's code gives the encoder's next state. -/
def Obligations.DecoderStepTracksEncoderStep : Prop :=
  ∀ (cfg : Config) (s : Sample) (st st' : Channel) (c : Code),
    encStep cfg s st = .ok (c, st') → decStep cfg c st = .ok (st'.predicted, st')

/-- R127, which the spec derives: a decoder in the encoder's right state follows it, and outputs its predictor. -/
def Obligations.DecoderReproducesTheRightChannel : Prop :=
  ∀ (l r : Sample) (s : State), InRange s.encL → InRange s.encR → InRange s.decL → s.decR = s.encR →
    ∃ (t u : State) (w v : ResponseWord),
      exec (.enc l r) s = .next t ∧ t.undelivered = s.undelivered ++ [w] ∧
      exec (.dec (responseByte w)) t = .next u ∧ u.undelivered = t.undelivered ++ [v] ∧
      u.decR = t.encR ∧ u.encR = t.encR ∧ responseRight v = t.encR.predicted ∧
      (s.decL = s.decR → u.decL = u.decR ∧ responseLeft v = t.encR.predicted)

/-- R104 and R72 (the spec's decision D23): ENCODE issues an ENCODE_PAIR for each pair and returns, in order, the bytes of the
responses that these commands make. It ends as those commands end, and no response is lost. That it returns no other response,
whatever is undelivered or still to come at its start, is the model's choice (log 12): the spec does not say when the host takes an
earlier response. -/
def Obligations.EncodeProcedureReturnsItsCommandsResponses : Prop :=
  ∀ (pcm : List Sample) (s : State), InRange s.encL → InRange s.encR →
    (∀ i, i < pcm.length / 2 → ∃ l r,
      pcm[2 * i]? = some l ∧ pcm[2 * i + 1]? = some r ∧ (encodeCommands pcm)[i]? = some (.enc l r)) ∧
    (encodeCommands pcm).length = pcm.length / 2 ∧
    ∃ log t, execAll (encodeCommands pcm) s = some (log, t) ∧
      let e := encodeProcedure pcm s
      let own := log.flatMap Prod.snd
      e.2 = own.map responseByte ∧ e.1.stop = none ∧
      e.1.state.encL = t.encL ∧ e.1.state.encR = t.encR ∧ e.1.state.decL = s.decL ∧ e.1.state.decR = s.decR ∧
      e.1.state.delivered ++ e.1.state.undelivered = s.delivered ++ s.undelivered ++ own

/-- R124 and R72 (the spec's decision D23): DECODE issues a DECODE_BYTE for each byte and returns, in order, the left and right
samples of the responses that these commands make. It ends as those commands end, and no response is lost. That it returns no
other response, whatever is undelivered or still to come at its start, is the model's choice (log 12): the spec does not say when
the host takes an earlier response. -/
def Obligations.DecodeProcedureReturnsItsCommandsResponses : Prop :=
  ∀ (bytes : List CodeByte) (s : State), InRange s.decL → InRange s.decR →
    decodeCommands bytes = bytes.map .dec ∧
    ∃ log t, execAll (decodeCommands bytes) s = some (log, t) ∧
      let d := decodeProcedure bytes s
      let own := log.flatMap Prod.snd
      d.2 = own.flatMap (fun w => [responseLeft w, responseRight w]) ∧ d.1.stop = none ∧
      d.1.state.decL = t.decL ∧ d.1.state.decR = t.decR ∧ d.1.state.encL = s.encL ∧ d.1.state.encR = s.encR ∧
      d.1.state.delivered ++ d.1.state.undelivered = s.delivered ++ s.undelivered ++ own

/-- R105 and R125, which the spec derives: the length laws, from every state with legal indices. Every event of the procedure is
done, the host's other events stay to come, and a procedure that issues anything leaves nothing undelivered (the model's choice,
log 12). -/
def Obligations.StreamProceduresObeyTheLengthLaws : Prop :=
  (∀ (pcm : List Sample) (s : State), InRange s.encL → InRange s.encR →
    let e := encodeProcedure pcm s
    e.2.length = pcm.length / 2 ∧ e.1.stop = none ∧ e.1.state.input = s.input ∧
    e.1.state.undelivered = if pcm.length < 2 then s.undelivered else []) ∧
  (∀ (bytes : List CodeByte) (s : State), InRange s.decL → InRange s.decR →
    let d := decodeProcedure bytes s
    d.2.length = 2 * bytes.length ∧ d.1.stop = none ∧ d.1.state.input = s.input ∧
    d.1.state.undelivered = if bytes.length = 0 then s.undelivered else [])

/-- R106: an odd trailing sample changes nothing, and an empty ENCODE changes no state. -/
def Obligations.OddTrailingSampleIsDropped : Prop :=
  (∀ (pcm : List Sample) (x : Sample) (s : State), pcm.length % 2 = 0 →
    encodeProcedure (pcm ++ [x]) s = encodeProcedure pcm s) ∧
  (∀ s : State, encodeProcedure [] s = (⟨s, none⟩, [])) ∧
  (∀ s : State,
    (encodeProcedure [] (runCommands [.rstEnc] s).state).1.state.encL = { predicted := 0#16, stepIndex := 0#7 } ∧
    (encodeProcedure [] (runCommands [.rstEnc] s).state).1.state.encR = { predicted := 0#16, stepIndex := 0#7 })

/-- R126, which the spec derives (90_conflicts.md C3): decoding any stream this encoder made, from equal decoder channels, gives
left output = right output for every byte, and equal decoder channels. That this holds whatever is undelivered on either core rests
on the model's choice of log 12. -/
def Obligations.EncodedStreamsDecodeToEqualChannels : Prop :=
  ∀ (pcm : List Sample) (s u : State),
    InRange s.encL → InRange s.encR → InRange u.decL → u.decL = u.decR →
    let bytes := (encodeProcedure pcm s).2
    let d := decodeProcedure bytes u
    d.1.stop = none ∧ d.1.state.input = u.input ∧ d.1.state.decL = d.1.state.decR ∧
    d.2.length = 2 * (pcm.length / 2) ∧
    ∀ j, j < pcm.length / 2 → d.2[2 * j]? = d.2[2 * j + 1]?

/-- R127 and R179 over whole streams (the spec's derivation): decoding all of ENCODE's bytes, from a decoder whose right channel
was the encoder's, ends with the encoder's right channel. That this holds from states with undelivered responses rests on the
model's choice of log 12. -/
def Obligations.DecodingAStreamEndsInTheEncodersRightState : Prop :=
  ∀ (pcm : List Sample) (s : State),
    RangeInvariant s → s.decR = s.encR →
    let e := encodeProcedure pcm s
    let d := decodeProcedure e.2 e.1.state
    e.1.stop = none ∧ d.1.stop = none ∧ d.1.state.input = s.input ∧
    d.1.state.decR = d.1.state.encR ∧ d.1.state.encR = e.1.state.encR
end

