-- ==== Sys2Proof/Laws/State.lean ====
section
/-! SUPPORT. One lemma for each field of State under each update of it, so that no later proof unfolds a record update. -/

namespace Sys2Proof.Machine

variable (s : State)

@[simp] theorem State.respond_encL (w : ResponseWord) : (s.respond w).encL = s.encL := rfl
@[simp] theorem State.respond_encR (w : ResponseWord) : (s.respond w).encR = s.encR := rfl
@[simp] theorem State.respond_decL (w : ResponseWord) : (s.respond w).decL = s.decL := rfl
@[simp] theorem State.respond_decR (w : ResponseWord) : (s.respond w).decR = s.decR := rfl
@[simp] theorem State.respond_input (w : ResponseWord) : (s.respond w).input = s.input := rfl
@[simp] theorem State.respond_undelivered (w : ResponseWord) : (s.respond w).undelivered = s.undelivered ++ [w] := rfl
@[simp] theorem State.respond_delivered (w : ResponseWord) : (s.respond w).delivered = s.delivered := rfl
@[simp] theorem State.respond_draws (w : ResponseWord) : (s.respond w).draws = s.draws := rfl
@[simp] theorem State.respond_drawStream (w : ResponseWord) : (s.respond w).drawStream = s.drawStream := rfl

@[simp] theorem State.zeroEncoder_encL : (s.zeroEncoder).encL = Channel.zero := rfl
@[simp] theorem State.zeroEncoder_encR : (s.zeroEncoder).encR = Channel.zero := rfl
@[simp] theorem State.zeroEncoder_decL : (s.zeroEncoder).decL = s.decL := rfl
@[simp] theorem State.zeroEncoder_decR : (s.zeroEncoder).decR = s.decR := rfl
@[simp] theorem State.zeroEncoder_input : (s.zeroEncoder).input = s.input := rfl
@[simp] theorem State.zeroEncoder_undelivered : (s.zeroEncoder).undelivered = s.undelivered := rfl
@[simp] theorem State.zeroEncoder_delivered : (s.zeroEncoder).delivered = s.delivered := rfl
@[simp] theorem State.zeroEncoder_draws : (s.zeroEncoder).draws = s.draws := rfl
@[simp] theorem State.zeroEncoder_drawStream : (s.zeroEncoder).drawStream = s.drawStream := rfl

@[simp] theorem State.zeroDecoder_encL : (s.zeroDecoder).encL = s.encL := rfl
@[simp] theorem State.zeroDecoder_encR : (s.zeroDecoder).encR = s.encR := rfl
@[simp] theorem State.zeroDecoder_decL : (s.zeroDecoder).decL = Channel.zero := rfl
@[simp] theorem State.zeroDecoder_decR : (s.zeroDecoder).decR = Channel.zero := rfl
@[simp] theorem State.zeroDecoder_input : (s.zeroDecoder).input = s.input := rfl
@[simp] theorem State.zeroDecoder_undelivered : (s.zeroDecoder).undelivered = s.undelivered := rfl
@[simp] theorem State.zeroDecoder_delivered : (s.zeroDecoder).delivered = s.delivered := rfl
@[simp] theorem State.zeroDecoder_draws : (s.zeroDecoder).draws = s.draws := rfl
@[simp] theorem State.zeroDecoder_drawStream : (s.zeroDecoder).drawStream = s.drawStream := rfl

@[simp] theorem State.hardwareReset_encL : (s.hardwareReset).encL = Channel.zero := rfl
@[simp] theorem State.hardwareReset_encR : (s.hardwareReset).encR = Channel.zero := rfl
@[simp] theorem State.hardwareReset_decL : (s.hardwareReset).decL = Channel.zero := rfl
@[simp] theorem State.hardwareReset_decR : (s.hardwareReset).decR = Channel.zero := rfl
@[simp] theorem State.hardwareReset_input : (s.hardwareReset).input = s.input := rfl
@[simp] theorem State.hardwareReset_undelivered : (s.hardwareReset).undelivered = [] := rfl
@[simp] theorem State.hardwareReset_delivered : (s.hardwareReset).delivered = s.delivered ++ survivors s.drawStream s.draws s.undelivered := rfl
@[simp] theorem State.hardwareReset_draws : (s.hardwareReset).draws = s.draws + s.undelivered.length := rfl
@[simp] theorem State.hardwareReset_drawStream : (s.hardwareReset).drawStream = s.drawStream := rfl

@[simp] theorem State.issue_encL (w : CommandWord) : (s.issue w).encL = s.encL := rfl
@[simp] theorem State.issue_encR (w : CommandWord) : (s.issue w).encR = s.encR := rfl
@[simp] theorem State.issue_decL (w : CommandWord) : (s.issue w).decL = s.decL := rfl
@[simp] theorem State.issue_decR (w : CommandWord) : (s.issue w).decR = s.decR := rfl
@[simp] theorem State.issue_input (w : CommandWord) : (s.issue w).input = .command w :: s.input := rfl
@[simp] theorem State.issue_undelivered (w : CommandWord) : (s.issue w).undelivered = s.undelivered := rfl
@[simp] theorem State.issue_delivered (w : CommandWord) : (s.issue w).delivered = s.delivered := rfl
@[simp] theorem State.issue_draws (w : CommandWord) : (s.issue w).draws = s.draws := rfl
@[simp] theorem State.issue_drawStream (w : CommandWord) : (s.issue w).drawStream = s.drawStream := rfl

@[simp] theorem State.scheduleFirst_encL (events : List HostEvent) : (s.scheduleFirst events).encL = s.encL := rfl
@[simp] theorem State.scheduleFirst_encR (events : List HostEvent) : (s.scheduleFirst events).encR = s.encR := rfl
@[simp] theorem State.scheduleFirst_decL (events : List HostEvent) : (s.scheduleFirst events).decL = s.decL := rfl
@[simp] theorem State.scheduleFirst_decR (events : List HostEvent) : (s.scheduleFirst events).decR = s.decR := rfl
@[simp] theorem State.scheduleFirst_input (events : List HostEvent) : (s.scheduleFirst events).input = events ++ s.input := rfl
@[simp] theorem State.scheduleFirst_undelivered (events : List HostEvent) : (s.scheduleFirst events).undelivered = s.undelivered := rfl
@[simp] theorem State.scheduleFirst_delivered (events : List HostEvent) : (s.scheduleFirst events).delivered = s.delivered := rfl
@[simp] theorem State.scheduleFirst_draws (events : List HostEvent) : (s.scheduleFirst events).draws = s.draws := rfl
@[simp] theorem State.scheduleFirst_drawStream (events : List HostEvent) : (s.scheduleFirst events).drawStream = s.drawStream := rfl

@[simp] theorem State.onDrawStream_encL (k : Nat) : (s.onDrawStream k).encL = s.encL := rfl
@[simp] theorem State.onDrawStream_encR (k : Nat) : (s.onDrawStream k).encR = s.encR := rfl
@[simp] theorem State.onDrawStream_decL (k : Nat) : (s.onDrawStream k).decL = s.decL := rfl
@[simp] theorem State.onDrawStream_decR (k : Nat) : (s.onDrawStream k).decR = s.decR := rfl
@[simp] theorem State.onDrawStream_input (k : Nat) : (s.onDrawStream k).input = s.input := rfl
@[simp] theorem State.onDrawStream_undelivered (k : Nat) : (s.onDrawStream k).undelivered = s.undelivered := rfl
@[simp] theorem State.onDrawStream_delivered (k : Nat) : (s.onDrawStream k).delivered = s.delivered := rfl
@[simp] theorem State.onDrawStream_draws (k : Nat) : (s.onDrawStream k).draws = s.draws := rfl
@[simp] theorem State.onDrawStream_drawStream (k : Nat) : (s.onDrawStream k).drawStream = k := rfl

@[simp] theorem State.powerCycle_eq : s.powerCycle = s.hardwareReset := rfl

@[simp] theorem State.idle_eq : s.idle = s.deliverOldest := rfl

@[simp] theorem State.deliverOldest_encL : s.deliverOldest.encL = s.encL := by
  unfold State.deliverOldest; split <;> rfl
@[simp] theorem State.deliverOldest_encR : s.deliverOldest.encR = s.encR := by
  unfold State.deliverOldest; split <;> rfl
@[simp] theorem State.deliverOldest_decL : s.deliverOldest.decL = s.decL := by
  unfold State.deliverOldest; split <;> rfl
@[simp] theorem State.deliverOldest_decR : s.deliverOldest.decR = s.decR := by
  unfold State.deliverOldest; split <;> rfl
@[simp] theorem State.deliverOldest_input : s.deliverOldest.input = s.input := by
  unfold State.deliverOldest; split <;> rfl
@[simp] theorem State.deliverOldest_draws : s.deliverOldest.draws = s.draws := by
  unfold State.deliverOldest; split <;> rfl
@[simp] theorem State.deliverOldest_drawStream : s.deliverOldest.drawStream = s.drawStream := by
  unfold State.deliverOldest; split <;> rfl
@[simp] theorem State.deliverOldest_undelivered : s.deliverOldest.undelivered = s.undelivered.tail := by
  unfold State.deliverOldest; split <;> simp_all

@[simp] theorem State.deliverOldest_delivered :
    s.deliverOldest.delivered = s.delivered ++ s.undelivered.take 1 := by
  unfold State.deliverOldest; split <;> simp_all

/-- Taking a response moves it from one list to the other and loses none. -/
theorem State.deliverOldest_order :
    s.deliverOldest.delivered ++ s.deliverOldest.undelivered = s.delivered ++ s.undelivered := by
  cases h : s.undelivered <;> simp [h]

end Sys2Proof.Machine
end

