-- ==== Sys2Proof/Laws/Ops.lean ====
section
/-! SUPPORT. What the shared operations do: saturation, truncating division, narrowing, the draw of a reset. -/

namespace Sys2Proof.Machine

theorem clamp_eq_saturate {v lo hi : Int} (h : lo ≤ hi) : clamp v lo hi = saturate v lo hi := by
  unfold clamp saturate; split <;> [skip; split] <;> omega

theorem saturate_bounds {v lo hi : Int} (_ : lo ≤ hi) : lo ≤ saturate v lo hi ∧ saturate v lo hi ≤ hi := by
  unfold saturate; omega

theorem clamp_bounds {v lo hi : Int} (h : lo ≤ hi) : lo ≤ clamp v lo hi ∧ clamp v lo hi ≤ hi := by
  rw [clamp_eq_saturate h]; exact saturate_bounds h

/-- `tdiv` is R9's `sign(a) * floor(|a| / b)`. -/
theorem tdiv_eq_sign_mul {a b : Int} (hb : 0 < b) :
    tdiv a b = a.sign * ((a.natAbs / b.natAbs : Nat) : Int) := by
  obtain ⟨n, rfl⟩ := Int.eq_ofNat_of_zero_le hb.le
  unfold tdiv
  rcases lt_trichotomy a 0 with h | rfl | h
  · obtain ⟨m, rfl⟩ : ∃ m : Nat, a = -(m : Int) := ⟨a.natAbs, by omega⟩
    rw [Int.neg_tdiv, Int.sign_eq_neg_one_of_neg h]; simp
  · simp
  · obtain ⟨m, rfl⟩ := Int.eq_ofNat_of_zero_le h.le
    rw [Int.sign_eq_one_of_pos h]; simp

/-- A value within an unsigned field is what the field then reads. -/
theorem toNat_ofInt_of_mem (w : Nat) {v : Int} (h0 : 0 ≤ v) (h1 : v < 2 ^ w) :
    ((BitVec.ofInt w v).toNat : Int) = v := by
  obtain ⟨n, rfl⟩ := Int.eq_ofNat_of_zero_le h0
  have : n < 2 ^ w := by exact_mod_cast h1
  simp [Nat.mod_eq_of_lt this]

/-- A value within the 16-bit signed range is what its pattern then reads (R10). -/
theorem toInt_enc16_of_mem {v : Int} (h0 : -32768 ≤ v) (h1 : v ≤ 32767) : (enc16 v).toInt = v := by
  rw [enc16, BitVec.toInt_ofInt]
  simp only [Int.bmod_def]; omega

/-- The responses a reset does not lose are some of the undelivered ones, in their order. -/
theorem survivors_sublist (k n : Nat) (ws : List ResponseWord) : (survivors k n ws).Sublist ws := by
  induction ws generalizing n with
  | nil => simp [survivors]
  | cons w rest ih =>
    unfold survivors; split
    · exact (ih _).cons _
    · exact (ih _).cons_cons _

theorem nextEvent_nil {s : State} (h : s.input = []) : s.nextEvent = none := by
  simp [State.nextEvent, h]

theorem nextEvent_cons {s : State} {e : HostEvent} {rest : List HostEvent} (h : s.input = e :: rest) :
    s.nextEvent = some (e, { s with input := rest }) := by
  simp [State.nextEvent, h]

end Sys2Proof.Machine
end

