-- ==== Sys2Proof/Laws/Datapath.lean ====
section
/-! SUPPORT. What the datapath's functions return, as exact integers. -/

namespace Sys2Proof.Machine

/-- The lookup of R28 has the shape `adjBySpec` writes. -/
theorem adj_eq (c : Code) : adj c = adjBySpec c.toNat := by
  revert c; decide

theorem adj_bounds (c : Code) : -1 ≤ adj c ∧ adj c ≤ 8 := by
  revert c; decide

theorem delta_eq (c : Code) (step : Nat) : delta c step = deltaBySpec c.toNat step := by
  unfold delta deltaBySpec
  simp only [Nat.shiftRight_eq_div_pow]; push_cast; rfl

theorem quantize_value {s p : Sample} {step : Nat} :
    ((quantize s p step).toNat : Int) =
      saturate (tdiv ((s.toInt - p.toInt) * 4 + step * 8) step) 0 15 := by
  have hb := saturate_bounds (v := tdiv ((s.toInt - p.toInt) * 4 + step * 8) step) (lo := 0) (hi := 15) (by omega)
  unfold quantize sampleValue
  rw [clamp_eq_saturate (by omega), toNat_ofInt_of_mem 4 hb.1 (by omega)]

theorem predict_value (p : Sample) (c : Code) (step : Nat) :
    (predict p c step).toInt = saturate (p.toInt + delta c step) (-32768) 32767 := by
  have hb := saturate_bounds (v := p.toInt + delta c step) (lo := -32768) (hi := 32767) (by omega)
  unfold predict sampleValue
  rw [clamp_eq_saturate (by omega), toInt_enc16_of_mem hb.1 hb.2]

theorem adapt_value (i : StepIndex) (c : Code) :
    ((adapt i c).toNat : Int) = saturate (i.toNat + adj c) 0 88 := by
  have hb := saturate_bounds (v := (i.toNat : Int) + adj c) (lo := 0) (hi := 88) (by omega)
  unfold adapt
  rw [clamp_eq_saturate (by omega), toNat_ofInt_of_mem 7 hb.1 (by omega)]

/-- Whatever the index was, the next one is legal. -/
theorem adapt_le (i : StepIndex) (c : Code) : (adapt i c).toNat ≤ 88 := by
  have h := adapt_value i c
  have := saturate_bounds (v := (i.toNat : Int) + adj c) (lo := 0) (hi := 88) (by omega)
  omega

theorem advance_inRange (cfg : Config) (st : Channel) (c : Code) : InRange (st.advance cfg c) := adapt_le _ _

theorem encStep_of_inRange {cfg : Config} {s : Sample} {st : Channel} (h : InRange st) :
    encStep cfg s st =
      .ok (quantize s st.predicted (stepSize cfg st.stepIndex),
        st.advance cfg (quantize s st.predicted (stepSize cfg st.stepIndex))) := by
  simp [encStep, Nat.not_lt.mpr h]

theorem encStep_of_not_inRange {cfg : Config} {s : Sample} {st : Channel} (h : ¬ InRange st) :
    encStep cfg s st = .error .badStepIndex := by
  simp [encStep, Nat.not_le.mp h]

theorem decStep_of_inRange {cfg : Config} {c : Code} {st : Channel} (h : InRange st) :
    decStep cfg c st = .ok ((st.advance cfg c).predicted, st.advance cfg c) := by
  simp [decStep, Nat.not_lt.mpr h]

theorem decStep_of_not_inRange {cfg : Config} {c : Code} {st : Channel} (h : ¬ InRange st) :
    decStep cfg c st = .error .badStepIndex := by
  simp [decStep, Nat.not_le.mp h]

/-- The two channel steps make the same next channel of the same code, and the next index is legal. -/
theorem encStep_cases {cfg : Config} {s : Sample} {st st' : Channel} {c : Code}
    (h : encStep cfg s st = .ok (c, st')) :
    InRange st ∧ c = quantize s st.predicted (stepSize cfg st.stepIndex) ∧ st' = st.advance cfg c := by
  by_cases hr : InRange st
  · rw [encStep_of_inRange hr] at h; simp at h; obtain ⟨rfl, rfl⟩ := h; exact ⟨hr, rfl, rfl⟩
  · simp [encStep_of_not_inRange hr] at h

theorem decStep_cases {cfg : Config} {c : Code} {st st' : Channel} {out : Sample}
    (h : decStep cfg c st = .ok (out, st')) :
    InRange st ∧ out = st'.predicted ∧ st' = st.advance cfg c := by
  by_cases hr : InRange st
  · rw [decStep_of_inRange hr] at h; simp at h; obtain ⟨rfl, rfl⟩ := h; exact ⟨hr, rfl, rfl⟩
  · simp [decStep_of_not_inRange hr] at h

end Sys2Proof.Machine
end

