-- ==== Sys2Proof/Laws/Decode.lean ====
section
/-! SUPPORT. The fields of a command word as numbers, the fields of an encoded command, and everything the decoder can answer. -/

namespace Sys2Proof

/-- Every field of a command word, as a quotient and a remainder of the word. -/
theorem fields_toNat (w : CommandWord) :
    (opField w).toNat = w.toNat / 2 ^ 32 ∧ (payloadField w).toNat = w.toNat % 2 ^ 32 ∧
    (leftField w).toNat = w.toNat / 2 ^ 16 % 2 ^ 16 ∧ (rightField w).toNat = w.toNat % 2 ^ 16 ∧
    (byteField w).toNat = w.toNat % 2 ^ 8 ∧ (decReservedField w).toNat = w.toNat % 2 ^ 32 / 2 ^ 8 := by
  have := w.isLt
  simp [opField, payloadField, leftField, rightField, byteField, decReservedField, Nat.shiftRight_eq_div_pow]
  omega

/-- The fields of an encoded ENCODE_PAIR (R62). -/
theorem fields_encode_enc (l r : Sample) :
    opField (encode (.enc l r)) = 0x1#4 ∧ leftField (encode (.enc l r)) = l ∧ rightField (encode (.enc l r)) = r := by
  simp only [encode]
  refine ⟨?_, ?_, ?_⟩ <;>
    (apply BitVec.eq_of_getLsbD_eq; intro k hk
     simp only [opField, leftField, rightField, BitVec.getLsbD_extractLsb', BitVec.getLsbD_append]
     simp [hk])
  interval_cases k <;> simp

/-- The fields of an encoded DECODE_BYTE (R63). -/
theorem fields_encode_dec (b : CodeByte) :
    opField (encode (.dec b)) = 0x2#4 ∧ decReservedField (encode (.dec b)) = 0#24 ∧ byteField (encode (.dec b)) = b := by
  simp only [encode]
  refine ⟨?_, ?_, ?_⟩ <;>
    (apply BitVec.eq_of_getLsbD_eq; intro k hk
     simp only [opField, decReservedField, byteField, BitVec.getLsbD_extractLsb', BitVec.getLsbD_append]
     simp [hk])
  interval_cases k <;> simp

/-- Everything the decoder can answer, by the value of the word (R61 to R67): what holds in each case holds of `decode w`. -/
theorem decode_cases (w : CommandWord) (P : Except DecodeError Instr → Prop)
    (enc : w.toNat / 2 ^ 32 = 1 → P (.ok (.enc (leftField w) (rightField w))))
    (dec : w.toNat / 2 ^ 32 = 2 → w.toNat % 2 ^ 32 / 2 ^ 8 = 0 → P (.ok (.dec (byteField w))))
    (decReserved : w.toNat / 2 ^ 32 = 2 → w.toNat % 2 ^ 32 / 2 ^ 8 ≠ 0 → P (.error .reservedBitsSet))
    (rstEnc : w = 0x300000000#36 → P (.ok .rstEnc))
    (rstEncReserved : w.toNat / 2 ^ 32 = 3 → w.toNat % 2 ^ 32 ≠ 0 → P (.error .reservedBitsSet))
    (rstDec : w = 0x400000000#36 → P (.ok .rstDec))
    (rstDecReserved : w.toNat / 2 ^ 32 = 4 → w.toNat % 2 ^ 32 ≠ 0 → P (.error .reservedBitsSet))
    (opcode : w.toNat / 2 ^ 32 = 0 ∨ 5 ≤ w.toNat / 2 ^ 32 → P (.error .reservedOpcode)) : P (decode w) := by
  have hf := fields_toNat w
  have hw := w.isLt
  simp only [decode, ← BitVec.toNat_inj, hf, BitVec.toNat_ofNat]
  norm_num only [Nat.reducePow, Nat.reduceMod] at *
  split
  · exact enc (by omega)
  split
  · split
    · exact dec (by omega) (by omega)
    · exact decReserved (by omega) (by omega)
  split
  · split
    · exact rstEnc (BitVec.eq_of_toNat_eq (by simp; omega))
    · exact rstEncReserved (by omega) (by omega)
  split
  · split
    · exact rstDec (BitVec.eq_of_toNat_eq (by simp; omega))
    · exact rstDecReserved (by omega) (by omega)
  · exact opcode (by omega)

end Sys2Proof
end

