-- ==== Sys2Proof/Laws/Meanings.lean ====
section
/-! SUPPORT. What each meaning, and a step, can answer: one equation where it completes, one where it faults, and one
inversion. -/

namespace Sys2Proof.Machine

/-- The channel an encoder lane is left in. -/
def encNext (cfg : Config) (x : Sample) (st : Channel) : Channel :=
  st.advance cfg (quantize x st.predicted (stepSize cfg st.stepIndex))

theorem encNext_inRange (cfg : Config) (x : Sample) (st : Channel) : InRange (encNext cfg x st) :=
  advance_inRange ..

theorem encodePair_of_inRange {cfg : Config} {l r : Sample} {s : State} (hl : InRange s.encL) (hr : InRange s.encR) :
    encodePair cfg l r s =
      .next (State.respond { s with encL := encNext cfg l s.encL, encR := encNext cfg r s.encR }
        (encodeResponse (packByte (quantize r s.encR.predicted (stepSize cfg s.encR.stepIndex))))) := by
  simp [encodePair, encStep_of_inRange hl, encStep_of_inRange hr, encNext]

theorem encodePair_of_not_inRange {cfg : Config} {l r : Sample} {s : State}
    (h : ¬ InRange s.encL ∨ ¬ InRange s.encR) : encodePair cfg l r s = .fault .badStepIndex := by
  by_cases hl : InRange s.encL
  · have hr : ¬ InRange s.encR := by tauto
    simp [encodePair, encStep_of_inRange hl, encStep_of_not_inRange hr]
  · simp [encodePair, encStep_of_not_inRange hl]

theorem decodeByte_of_inRange {cfg : Config} {b : CodeByte} {s : State} (hl : InRange s.decL) (hr : InRange s.decR) :
    decodeByte cfg b s =
      .next (State.respond
        { s with decL := s.decL.advance cfg (leftCode b), decR := s.decR.advance cfg (rightCode b) }
        (decodeResponse (s.decL.advance cfg (leftCode b)).predicted (s.decR.advance cfg (rightCode b)).predicted)) := by
  simp [decodeByte, decStep_of_inRange hl, decStep_of_inRange hr]

theorem decodeByte_of_not_inRange {cfg : Config} {b : CodeByte} {s : State}
    (h : ¬ InRange s.decL ∨ ¬ InRange s.decR) : decodeByte cfg b s = .fault .badStepIndex := by
  by_cases hl : InRange s.decL
  · have hr : ¬ InRange s.decR := by tauto
    simp [decodeByte, decStep_of_inRange hl, decStep_of_not_inRange hr]
  · simp [decodeByte, decStep_of_not_inRange hl]

theorem encodePair_cases {cfg : Config} {l r : Sample} {s t : State} (h : encodePair cfg l r s = .next t) :
    InRange s.encL ∧ InRange s.encR ∧
    t = State.respond { s with encL := encNext cfg l s.encL, encR := encNext cfg r s.encR }
      (encodeResponse (packByte (quantize r s.encR.predicted (stepSize cfg s.encR.stepIndex)))) := by
  by_cases hl : InRange s.encL
  · by_cases hr : InRange s.encR
    · rw [encodePair_of_inRange hl hr] at h
      injection h with h
      exact ⟨hl, hr, h.symm⟩
    · simp [encodePair_of_not_inRange (Or.inr hr)] at h
  · simp [encodePair_of_not_inRange (Or.inl hl)] at h

theorem decodeByte_cases {cfg : Config} {b : CodeByte} {s t : State} (h : decodeByte cfg b s = .next t) :
    InRange s.decL ∧ InRange s.decR ∧
    t = State.respond
      { s with decL := s.decL.advance cfg (leftCode b), decR := s.decR.advance cfg (rightCode b) }
      (decodeResponse (s.decL.advance cfg (leftCode b)).predicted (s.decR.advance cfg (rightCode b)).predicted) := by
  by_cases hl : InRange s.decL
  · by_cases hr : InRange s.decR
    · rw [decodeByte_of_inRange hl hr] at h
      injection h with h
      exact ⟨hl, hr, h.symm⟩
    · simp [decodeByte_of_not_inRange (Or.inr hr)] at h
  · simp [decodeByte_of_not_inRange (Or.inl hl)] at h

@[simp] theorem exec_enc (l r : Sample) (s : State) : exec (.enc l r) s = encodePair hardware l r s := rfl
@[simp] theorem exec_dec (b : CodeByte) (s : State) : exec (.dec b) s = decodeByte hardware b s := rfl
@[simp] theorem exec_rstEnc (s : State) : exec .rstEnc s = .next s.zeroEncoder := rfl
@[simp] theorem exec_rstDec (s : State) : exec .rstDec s = .next s.zeroDecoder := rfl

/-- Everything a command can lead to. -/
theorem exec_cases {i : Instr} {s t : State} (h : exec i s = .next t) :
    (∃ l r, i = .enc l r ∧ encodePair hardware l r s = .next t) ∨
    (∃ b, i = .dec b ∧ decodeByte hardware b s = .next t) ∨
    (i = .rstEnc ∧ t = s.zeroEncoder) ∨ (i = .rstDec ∧ t = s.zeroDecoder) := by
  cases i with
  | enc l r => exact .inl ⟨l, r, rfl, h⟩
  | dec b => exact .inr (.inl ⟨b, rfl, h⟩)
  | rstEnc => rw [exec_rstEnc] at h; injection h with h; exact .inr (.inr (.inl ⟨rfl, h.symm⟩))
  | rstDec => rw [exec_rstDec] at h; injection h with h; exact .inr (.inr (.inr ⟨rfl, h.symm⟩))

theorem step_of_nil {s : State} (h : s.input = []) : step s = .next s.deliverOldest := by
  simp [step, nextEvent_nil h]

theorem step_of_cons {s : State} {e : HostEvent} {rest : List HostEvent} (h : s.input = e :: rest) :
    step s = runEvent e { s with input := rest } := by
  simp [step, nextEvent_cons h]

/-- Everything a step can lead to: the idle step, one command, a reset, or a response taken. -/
theorem step_cases {s t : State} (h : step s = .next t) :
    (s.input = [] ∧ t = s.deliverOldest) ∨
    ∃ rest, (∃ w i, s.input = .command w :: rest ∧ decode w = .ok i ∧ exec i { s with input := rest } = .next t) ∨
      ((s.input = .hardwareReset :: rest ∨ s.input = .powerCycle :: rest) ∧
        t = State.hardwareReset { s with input := rest }) ∨
      (s.input = .takeResponse :: rest ∧ t = State.deliverOldest { s with input := rest }) := by
  rcases hi : s.input with _ | ⟨e, rest⟩
  · rw [step_of_nil hi] at h; injection h with h; exact .inl ⟨rfl, h.symm⟩
  · rw [step_of_cons hi] at h
    refine .inr ⟨rest, ?_⟩
    cases e with
    | command w =>
      simp only [runEvent, runCommand] at h
      cases hd : decode w with
      | ok i => rw [hd] at h; exact .inl ⟨w, i, rfl, hd, h⟩
      | error e => simp [hd] at h
    | hardwareReset => injection h with h; exact .inr (.inl ⟨.inl rfl, h.symm⟩)
    | powerCycle => injection h with h; exact .inr (.inl ⟨.inr rfl, h.symm⟩)
    | takeResponse => injection h with h; exact .inr (.inr ⟨rfl, h.symm⟩)

/-- A run of the model is a run of the host's machine: they stop together, and go on together. -/
theorem run_of_core_run (n : Nat) (s : State) :
    (∀ t, Host.Core.run Sys2Proof.core n s = .next t → run n s = ⟨t, none⟩) := by
  induction n generalizing s with
  | zero => intro t h; injection h with h; subst h; rfl
  | succ n ih =>
    intro t h
    have hs : Sys2Proof.core.step s = step s := rfl
    simp only [Host.Core.run, hs] at h
    unfold run
    cases hstep : step s with
    | next u => rw [hstep] at h; exact ih u t h
    | fault r => rw [hstep] at h; simp at h
    | refused r => rw [hstep] at h; simp at h

end Sys2Proof.Machine
end

