-- ==== Sys2Proof/Laws/PerInstr.lean ====
section
/-! SUPPORT. One statement for each command, made per constructor: the word the encoder writes carries the command's opcode of
R61 and matches its own row of the opcode table. -/

namespace Sys2Proof.Laws.OpcodeRow

/-- The row of spec/opcode_table.json a command belongs to. -/
def row (i : Instr) : OpcodeRow :=
  match i with
  | .enc _ _ => ⟨0x100000000#36, 0xF00000000#36⟩
  | .dec _ => ⟨0x200000000#36, 0xFFFFFFF00#36⟩
  | .rstEnc => ⟨0x300000000#36, 0xFFFFFFFFF#36⟩
  | .rstDec => ⟨0x400000000#36, 0xFFFFFFFFF#36⟩

/-- The encoded command matches its row. -/
def Statement (i : Instr) : Prop := (row i).admits (encode i) = true

theorem enc (l r : Sample) : Statement (.enc l r) := by
  simp only [Statement, row, encode, OpcodeRow.admits, beq_iff_eq]
  apply BitVec.eq_of_getLsbD_eq
  intro k hk
  simp only [BitVec.getLsbD_and, BitVec.getLsbD_append]
  interval_cases k <;> simp

theorem dec (b : CodeByte) : Statement (.dec b) := by
  simp only [Statement, row, encode, OpcodeRow.admits, beq_iff_eq]
  apply BitVec.eq_of_getLsbD_eq
  intro k hk
  simp only [BitVec.getLsbD_and, BitVec.getLsbD_append]
  interval_cases k <;> simp

theorem rstEnc : Statement .rstEnc := by unfold Statement; decide

theorem rstDec : Statement .rstDec := by unfold Statement; decide

end Sys2Proof.Laws.OpcodeRow
end

