-- ==== Sys2Proof/Laws/Runs.lean ====
section
/-! SUPPORT. When the run of R182 ends; and the host procedures one event at a time: what a procedure does with the responses of earlier commands, and what a
run of a list of commands then does with its first command. -/

namespace Sys2Proof.Machine

/-- The response of ENCODE_PAIR with right sample `r` when ENC_R is `st`. -/
def encResponseOf (cfg : Config) (r : Sample) (st : Channel) : ResponseWord :=
  encodeResponse (packByte (quantize r st.predicted (stepSize cfg st.stepIndex)))

/-- The response of DECODE_BYTE with byte `b`. -/
def decResponseOf (cfg : Config) (b : CodeByte) (l r : Channel) : ResponseWord :=
  decodeResponse (l.advance cfg (leftCode b)).predicted (r.advance cfg (rightCode b)).predicted

theorem run_succ_of_next {n : Nat} {s t : State} (h : step s = .next t) : run (n + 1) s = run n t := by
  simp [run, h]

/-- The conditions of R182, as propositions. -/
theorem State.final_iff (s : State) :
    s.final = true ↔ (∀ w, HostEvent.command w ∉ s.input) ∧ s.undelivered = [] := by
  have : (∀ e ∈ s.input, e.isCommand = false) ↔ ∀ w, HostEvent.command w ∉ s.input := by
    refine ⟨fun h w hw => by simpa [HostEvent.isCommand] using h _ hw, fun h e he => ?_⟩
    cases e with
    | command w => exact absurd he (h w)
    | hardwareReset => rfl
    | powerCycle => rfl
    | takeResponse => rfl
  simp [State.final, this]

/-- A state with a command still to come is not final. -/
theorem State.final_eq_false_of_command {s : State} {w : CommandWord} (h : HostEvent.command w ∈ s.input) :
    s.final = false := by
  rw [Bool.eq_false_iff, ne_eq, State.final_iff]; exact fun hf => hf.1 w h

theorem runToEnd_of_final {s : State} (n : Nat) (h : s.final = true) : runToEnd n s = ⟨s, none⟩ := by
  cases n <;> simp [runToEnd, h]

theorem runToEnd_succ_of_next {n : Nat} {s t : State} (hf : s.final = false) (h : step s = .next t) :
    runToEnd (n + 1) s = runToEnd n t := by
  simp [runToEnd, hf, h]

theorem runToEnd_succ_of_fault {n : Nat} {s : State} {r : Fault} (hf : s.final = false) (h : step s = .fault r) :
    runToEnd (n + 1) s = ⟨s, some (.fault r)⟩ := by
  simp [runToEnd, hf, h]

theorem runToEnd_succ_of_refused {n : Nat} {s : State} {r : Refusal} (hf : s.final = false)
    (h : step s = .refused r) : runToEnd (n + 1) s = ⟨s, some (.refused r)⟩ := by
  simp [runToEnd, hf, h]

/-- Where stepping first meets a final state, there the run of R182 ends, however many steps more it is given. -/
theorem runToEnd_eq_run_of_first {m n : Nat} (hmn : m ≤ n) (s : State) (hf : (run m s).final = true)
    (hfirst : ∀ k, k < m → (run k s).final = false) : runToEnd n s = run m s := by
  induction m generalizing n s with
  | zero => exact runToEnd_of_final n (by simpa [run, RunRecord.final] using hf)
  | succ m ih =>
    obtain ⟨n, rfl⟩ : ∃ p, n = p + 1 := ⟨n - 1, by omega⟩
    have h0 : s.final = false := by simpa [run, RunRecord.final] using hfirst 0 (by omega)
    cases h : step s with
    | next t =>
      rw [runToEnd_succ_of_next h0 h, run_succ_of_next h] at *
      exact ih (by omega) t hf fun k hk => by simpa [run, h] using hfirst (k + 1) (by omega)
    | fault r => simp [run, h, RunRecord.final] at hf
    | refused r => simp [run, h, RunRecord.final] at hf

/-- Taking as many responses as there are undelivered gets them all. -/
theorem run_takeResponses (n : Nat) (events : List HostEvent) (ws : List ResponseWord) (s : State) :
    run (ws.length + n) { s with input := List.replicate ws.length .takeResponse ++ events, undelivered := ws } =
      run n { s with input := events, undelivered := [], delivered := s.delivered ++ ws } := by
  induction ws generalizing s with
  | nil => simp
  | cons w ws ih =>
    have h : step { s with
          input := List.replicate (w :: ws).length .takeResponse ++ events, undelivered := w :: ws } =
        .next { s with
          input := List.replicate ws.length .takeResponse ++ events, undelivered := ws,
          delivered := s.delivered ++ [w] } := by
      rw [step_of_cons rfl]; rfl
    rw [List.length_cons, Nat.add_right_comm]
    exact (run_succ_of_next h).trans (by simpa using ih { s with delivered := s.delivered ++ [w] })

/-- A run of no commands changes nothing. -/
theorem runCommands_nil (s : State) : runCommands [] s = ⟨s, none⟩ := rfl

/-- A procedure that issues nothing changes nothing. -/
theorem runProcedure_nil (s : State) : runProcedure [] s = ⟨s, none⟩ := rfl

/-- A procedure that issues a command runs from the state in which every earlier response has been taken. -/
theorem runProcedure_cons (i : Instr) (is : List Instr) (s : State) :
    runProcedure (i :: is) s =
      runCommands (i :: is) { s with undelivered := [], delivered := s.delivered ++ s.undelivered } := by
  simp only [runProcedure, procedureEvents, runEvents, List.length_append, List.length_replicate, State.scheduleFirst,
    List.append_assoc]
  exact run_takeResponses _ _ s.undelivered s

/-- The transaction of a command that responds: the command, then its response taken. -/
theorem runCommands_cons_of_responds {i : Instr} {is : List Instr} {s t : State} {w : ResponseWord}
    (hi : hasResponse i = true) (hd : decode (encode i) = .ok i)
    (hx : exec i (s.scheduleFirst (.takeResponse :: transactions is)) = .next t)
    (hin : t.input = .takeResponse :: (transactions is ++ s.input)) (hu : t.undelivered = [w]) :
    runCommands (i :: is) s =
      runCommands is { t with input := s.input, undelivered := [], delivered := t.delivered ++ [w] } := by
  have htr : transactions (i :: is) = .command (encode i) :: .takeResponse :: transactions is := by
    simp [transactions, transaction, hi]
  unfold runCommands runEvents
  rw [htr]
  have h1 : step (s.scheduleFirst (.command (encode i) :: .takeResponse :: transactions is)) = .next t := by
    rw [step_of_cons rfl]; simp only [runEvent, runCommand, hd]; exact hx
  have h2 : step t = .next (State.deliverOldest { t with input := transactions is ++ s.input }) := by
    rw [step_of_cons hin]; rfl
  rw [List.length_cons, List.length_cons, run_succ_of_next h1, run_succ_of_next h2]
  congr 1
  simp [State.deliverOldest, hu, State.scheduleFirst]

end Sys2Proof.Machine
end

