-- ==== Sys2Proof/Machine/Flags.lean ====
section
/-! DEFINITION. Flags. There are none: "The core has no program counter, no general-purpose registers, no flags or condition
codes, and no control or status registers" (R29), and R100, R120, R140 and R141 each write none. The file stands empty so
that a reader who looks for flag computations finds that said. -/
end

