-- ==== Sys2Proof/Tests/Slice0.lean ====
section
/-! SUPPORT. Tests: expected results are those of spec/95_test_vectors.md (the vector is named) or of the spec's encodings, and the
witnesses that the hypotheses of the obligations can be met. -/

namespace Sys2Proof.Tests

open Sys2Proof.Machine

/-- A channel `{predicted, stepIndex}` as the test vectors write it. -/
def ch (p : Int) (i : Nat) : Channel := ⟨BitVec.ofInt 16 p, BitVec.ofNat 7 i⟩

/-- A state with nothing on any channel. -/
def regs (encL encR decL decR : Channel) : State := ⟨encL, encR, decL, decR, [], [], [], 0, 0⟩

/-- The next state, if there is one. -/
def nextOf (o : Host.Outcome State Fault Refusal) : Option State :=
  match o with
  | .next s => some s
  | .fault _ => none
  | .refused _ => none

/-- The fault, if there is one. -/
def faultOf (o : Host.Outcome State Fault Refusal) : Option Fault :=
  match o with
  | .next _ => none
  | .fault f => some f
  | .refused _ => none

/-- The refusal, if there is one. -/
def refusalIn (o : Host.Outcome State Fault Refusal) : Option Refusal :=
  match o with
  | .next _ => none
  | .fault _ => none
  | .refused r => some r

/-! ### Well-formedness smoke tests: one ill-formed term for each check -/

theorem test_hardware_table_wellFormed : hardware.wellFormed = true := by decide

theorem test_short_table_refused : Config.wellFormed ⟨defaultStepTable.dropLast⟩ = false := by decide

theorem test_zero_entry_refused : Config.wellFormed ⟨defaultStepTable.set 3 0⟩ = false := by decide

theorem test_decreasing_table_refused : Config.wellFormed ⟨defaultStepTable.set 5 8⟩ = false := by decide

theorem test_first_entry_refused : Config.wellFormed ⟨defaultStepTable.set 0 6⟩ = false := by decide

theorem test_last_entry_refused : Config.wellFormed ⟨defaultStepTable.set 88 32766⟩ = false := by decide

/-- The refused words of 95_test_vectors.md section 2.7. -/
theorem test_reserved_words_ill_formed :
    [0x000000000#36, 0x500000000#36, 0xF12345678#36, 0x200000188#36, 0x280000000#36, 0x300000001#36,
      0x400010000#36].all (fun w => !CommandWord.wellFormed w) = true := by decide

theorem test_nearest_words_well_formed :
    [0x100000000#36, 0x200000088#36, 0x300000000#36, 0x400000000#36].all CommandWord.wellFormed = true := by decide

/-- Every operand of every command is legal (R62, R63), so there is no ill-formed command to refuse. -/
theorem test_every_command_wellFormed (i : Instr) : i.wellFormed = true := by cases i <;> rfl

/-! ### Decoding: words written out from R62 to R65 -/

/-- Pattern `0001 L R` of R62, with L = 1000 (0x03E8) and R = -1000 (0xFC18): program P3's word. -/
theorem test_decode_enc :
    decode 0b000100000011111010001111110000011000#36 = .ok (.enc 1000#16 (-1000#16)) := by decide

/-- Pattern `0010 0…0 B` of R63 with B = 0xF0: program P3's word. -/
theorem test_decode_dec : decode 0b001000000000000000000000000011110000#36 = .ok (.dec 0xF0#8) := by decide

theorem test_decode_rstEnc : decode 0b001100000000000000000000000000000000#36 = .ok .rstEnc := by decide

theorem test_decode_rstDec : decode 0b010000000000000000000000000000000000#36 = .ok .rstDec := by decide

/-- 95_test_vectors.md section 2.7, the reasons. -/
theorem test_decode_refusals :
    decode 0x000000000#36 = .error .reservedOpcode ∧ decode 0x500000000#36 = .error .reservedOpcode ∧
    decode 0xF12345678#36 = .error .reservedOpcode ∧ decode 0x200000188#36 = .error .reservedBitsSet ∧
    decode 0x280000000#36 = .error .reservedBitsSet ∧ decode 0x300000001#36 = .error .reservedBitsSet ∧
    decode 0x400010000#36 = .error .reservedBitsSet := by decide

/-- The command words of vectors E2, E7 and E8. -/
theorem test_encode_words :
    encode (.enc 100#16 (-100#16)) = 0x10064FF9C#36 ∧ encode (.enc (-2000#16) 2000#16) = 0x1F83007D0#36 ∧
    encode (.enc (-5#16) 5#16) = 0x1FFFB0005#36 := by decide

theorem test_decodeTableWord :
    decodeTableWord 40 0x200000088 = some (.dec 0x88#8) ∧ decodeTableWord 40 0x1000000000 = none := by decide

/-! ### Datapath: sections 2.1, 2.2, 2.3 -/

/-- Section 2.1 at step 7, predictor 0. -/
theorem test_quantize_step7 :
    ([-32768, -100, -15, -14, -8, -7, -2, -1, 0, 1, 2, 6, 7, 8, 13, 14, 21, 32767].map
      fun s => (quantize (BitVec.ofInt 16 s) 0#16 7).toNat) =
    [0, 0, 0, 0, 3, 4, 6, 7, 8, 8, 9, 11, 12, 12, 15, 15, 15, 15] := by decide

/-- Section 2.1 at step 32767, predictor 0. -/
theorem test_quantize_step32767 :
    ([-32768, -16384, -8192, -1, 0, 8191, 8192, 16384, 32767].map
      fun s => (quantize (BitVec.ofInt 16 s) 0#16 32767).toNat) = [3, 5, 6, 7, 8, 8, 9, 10, 12] := by decide

/-- D-P1 to D-P9. -/
theorem test_predict :
    ([(32767, 15, 32767), (-32768, 0, 32767), (32767, 8, 7), (-32768, 7, 7), (0, 15, 32767), (0, 0, 32767),
        (-32768, 15, 32767), (32767, 0, 32767), (32000, 15, 15289)].map
      fun (v : Int × Nat × Nat) =>
        (predict (BitVec.ofInt 16 v.1) (BitVec.ofNat 4 v.2.1) v.2.2).toInt) =
    [32767, -32768, 32767, -32768, 32767, -32768, 28670, -28671, 32767] := by decide

/-- Section 2.3. -/
theorem test_adapt :
    ([(0, 4), (0, 8), (0, 0), (1, 7), (84, 0), (87, 15), (88, 15), (88, 7), (80, 12), (50, 3)].map
      fun (v : Nat × Nat) => (adapt (BitVec.ofNat 7 v.1) (BitVec.ofNat 4 v.2)).toNat) =
    [0, 0, 8, 0, 88, 88, 88, 87, 82, 52] := by decide

/-! ### Commands, one step each -/

/-- E4 (default table, entry 40 = 337). -/
theorem test_enc_e4 :
    nextOf (exec (.enc 1000#16 1100#16) (regs (ch 1000 40) (ch 1000 40) (ch 5 3) (ch 6 4))) =
      some { regs (ch 1043 39) (ch 1127 39) (ch 5 3) (ch 6 4) with undelivered := [0x00000099#32] } := by decide

/-- R5: an index out of range in the left register faults. -/
theorem test_enc_r5 :
    faultOf (exec (.enc 0#16 0#16) (regs (ch 0 100) (ch 0 0) (ch 0 0) (ch 0 0))) = some .badStepIndex := by decide

/-- D6: no lane saturates, and both indices hold at 88. -/
theorem test_dec_d6 :
    nextOf (exec (.dec 0x0F#8) (regs (ch 5 3) (ch 6 4) (ch 32767 88) (ch (-32768) 88))) =
      some { regs (ch 5 3) (ch 6 4) (ch (-28671) 88) (ch 28670 88) with undelivered := [0x90016FFE#32] } := by decide +kernel

/-- D8 (default table, entries 87 = 29794 and 1 = 8). -/
theorem test_dec_d8 :
    nextOf (exec (.dec 0x7F#8) (regs (ch 5 3) (ch 6 4) (ch 0 87) (ch 0 1))) =
      some { regs (ch 5 3) (ch 6 4) (ch (-3724) 86) (ch 15 9) with undelivered := [0xF174000F#32] } := by decide

/-- R1. -/
theorem test_rstEnc_r1 :
    nextOf (exec .rstEnc (regs (ch 13 8) (ch (-13) 8) (ch 5 3) (ch 6 4))) =
      some (regs (ch 0 0) (ch 0 0) (ch 5 3) (ch 6 4)) := by decide

/-- R4: an out-of-range index is cleared without a fault. -/
theorem test_rstEnc_r4 :
    nextOf (exec .rstEnc (regs (ch 0 100) (ch 0 0) (ch 5 3) (ch 6 4))) =
      some (regs (ch 0 0) (ch 0 0) (ch 5 3) (ch 6 4)) := by decide

/-- R2. -/
theorem test_rstDec_r2 :
    nextOf (exec .rstDec (regs (ch 13 8) (ch (-13) 8) (ch 5 3) (ch 6 4))) =
      some (regs (ch 13 8) (ch (-13) 8) (ch 0 0) (ch 0 0)) := by decide

/-! ### The step and the channels -/

/-- E8 and program P4, command 0, through the step. -/
theorem test_step_runs_word :
    nextOf (step (State.reset.withFetchWord 40 0x1FFFB0005)) =
      some { regs (ch (-5) 0) (ch 4 0) (ch 0 0) (ch 0 0) with undelivered := [0x000000AA#32] } := by decide

/-- Program P4, command 1. -/
theorem test_step_refuses_word :
    refusalIn (step (State.reset.withFetchWord 40 0x500000000)) = some .reservedOpcode := by decide

/-- R170 from a state with an out-of-range index; nothing is undelivered, so no draw is made. -/
theorem test_step_hardwareReset :
    nextOf (step ((regs (ch 13 8) (ch 0 100) (ch 5 3) (ch 6 4)).scheduleFirst [.hardwareReset])) =
      some State.reset := by decide

/-- R182 with E8: the run ends when its one response is delivered, before the reset still to come, so the final state is E8's. -/
theorem test_run_ends_before_pending_reset :
    (endOfRun (State.reset.scheduleFirst [.command 0x1FFFB0005#36, .takeResponse, .hardwareReset])).finalState =
      some ⟨ch (-5) 0, ch 4 0, ch 0 0, ch 0 0, [0x000000AA#32]⟩ := by decide

/-- L1-3 and L1-7: `ENCODE([0, 0, 5])` gives one byte, 0x88. -/
theorem test_encode_procedure : (encodeProcedure [0#16, 0#16, 5#16] State.reset).2 = [0x88#8] := by decide

/-- Section 2.5: `DECODE([0x88, 0x77])` gives `[1, 1, 0, 0]`. -/
theorem test_decode_procedure :
    (decodeProcedure [0x88#8, 0x77#8] State.reset).2 = [1#16, 1#16, 0#16, 0#16] := by decide

/-- R104's worked example with an earlier response still undelivered, here a DECODE_BYTE's: that one is not in the result. -/
theorem test_encode_procedure_after_stale_response :
    (encodeProcedure [0#16, 0#16] { State.reset with undelivered := [0x00010001#32] }).2 = [0x88#8] := by decide

/-- R124's worked example with an earlier response still undelivered. -/
theorem test_decode_procedure_after_stale_response :
    (decodeProcedure [0x88#8] { State.reset with undelivered := [0x00000077#32] }).2 = [1#16, 1#16] := by decide

/-- R71's forms: decimal, hexadecimal, a comment, a blank line, an operand out of range. -/
theorem test_assemble :
    assembleLine ['e', 'n', 'c', ' ', '-', '5', ',', ' ', '0', 'x', '0', '0', '0', '5'] = .command (.enc (-5#16) 5#16) ∧
    assembleLine ['r', 's', 't', '.', 'd', 'e', 'c', ' ', ';', 'x'] = .command .rstDec ∧
    assembleLine [';', 'x'] = .blank ∧ assembleLine ['d', 'e', 'c', ' ', '2', '5', '6'] = .error := by decide

/-! ### Witnesses: the hypotheses of each obligation can be met, at boundary values -/

/-- A state in range, at the boundaries 0 and 88 of every register's index. -/
def edge : State := regs (ch 32767 88) (ch (-32768) 0) (ch 32767 0) (ch (-32768) 88)

theorem witness_EveryStepLiesBetween7And32767 :
    hardware.wellFormed = true ∧ (0#7).toNat ≤ 88 ∧ (88#7).toNat ≤ 88 := by decide

theorem witness_QuantizerIsTheTruncatedQuotientClamped : 0 < 7 ∧ 0 < 32767 := by decide

theorem witness_QuantizerHasTheFloorClosedForm : 0 < 7 ∧ (1 ≤ 1 ∧ 1 ≤ 14) ∧ (1 ≤ 14 ∧ 14 ≤ 14) := by decide

theorem witness_PredictorUpdateSaturates : InRange edge.encL ∧ InRange edge.decL ∧ InRange edge.decR := by decide

theorem witness_StepIndexUpdateSaturates : (0#7).toNat ≤ 88 ∧ (88#7).toNat ≤ 88 := by decide

theorem witness_IntermediateValuesFitTwentyBits :
    (7 ≤ 7 ∧ 7 ≤ 32767 ∧ (0#7).toNat ≤ 88) ∧ (7 ≤ 32767 ∧ 32767 ≤ 32767 ∧ (88#7).toNat ≤ 88) := by decide

theorem witness_ReconstructionTermNeverVanishes :
    (7 ≤ 7 ∧ 7 ≤ 32767) ∧ (7 ≤ 32767 ∧ 32767 ≤ 32767) ∧ (0#4).toNat ≤ (15#4).toNat := by decide

theorem witness_EncoderChannelStep :
    hardware.wellFormed = true ∧ InRange (ch 0 88) ∧ ¬ InRange (ch 0 89) := by decide

theorem witness_DecoderChannelStep : InRange (ch 0 88) ∧ ¬ InRange (ch 0 89) := by decide

theorem witness_SaturatedPredictorHoldsWhileIndexDecays :
    hardware.wellFormed = true ∧ (InRange (ch 32767 88) ∧ (ch 32767 88).predicted = 0x7FFF#16) ∧
    (InRange (ch 32767 0) ∧ (ch 32767 0).predicted = 0x7FFF#16) := by decide

theorem witness_EncodePairCommand :
    (InRange edge.encL ∧ InRange edge.encR) ∧ ¬ InRange { edge with encL := ch 0 89 }.encL ∧
    ¬ InRange { edge with encR := ch 0 127 }.encR := by decide

theorem witness_DecodeByteCommand :
    (InRange edge.decL ∧ InRange edge.decR) ∧ ¬ InRange { edge with decL := ch 0 89 }.decL ∧
    ¬ InRange { edge with decR := ch 0 127 }.decR := by decide

theorem witness_ResetEncoderCommand : exec .rstEnc edge = .next edge.zeroEncoder := rfl

theorem witness_ResetCommandsRebaseTheirDirection :
    exec .rstEnc edge = .next edge.zeroEncoder ∧ exec .rstDec edge = .next edge.zeroDecoder := ⟨rfl, rfl⟩

/-- ENCODE_PAIR has a next state where both indices it reads are legal. -/
theorem enc_has_next {l r : Sample} {s : State} (hl : InRange s.encL) (hr : InRange s.encR) :
    ∃ t, exec (.enc l r) s = .next t := ⟨_, encodePair_of_inRange hl hr⟩

/-- DECODE_BYTE has a next state where both indices it reads are legal. -/
theorem dec_has_next {b : CodeByte} {s : State} (hl : InRange s.decL) (hr : InRange s.decR) :
    ∃ t, exec (.dec b) s = .next t := ⟨_, decodeByte_of_inRange hl hr⟩

/-- ENCODE_PAIR faults where an index it reads is not legal. -/
theorem enc_faults {l r : Sample} {s : State} (h : ¬ InRange s.encL ∨ ¬ InRange s.encR) :
    exec (.enc l r) s = .fault .badStepIndex := encodePair_of_not_inRange h

/-- DECODE_BYTE faults where an index it reads is not legal. -/
theorem dec_faults {b : CodeByte} {s : State} (h : ¬ InRange s.decL ∨ ¬ InRange s.decR) :
    exec (.dec b) s = .fault .badStepIndex := decodeByte_of_not_inRange h

/-- Each command has a next state from `edge`. -/
theorem witness_EachCommandKeepsEverythingElse :
    (∃ t, exec (.enc 0#16 0#16) edge = .next t) ∧ (∃ t, exec (.dec 0x0F#8) edge = .next t) ∧
    (∃ t, exec .rstEnc edge = .next t) ∧ (∃ t, exec .rstDec edge = .next t) :=
  ⟨enc_has_next (by decide) (by decide), dec_has_next (by decide) (by decide),
    ⟨_, rfl⟩, ⟨_, rfl⟩⟩

theorem witness_DirectionsAreDisjoint :
    (∃ t, exec (.enc 0#16 0#16) edge = .next t) ∧ (∃ t, exec (.dec 0x0F#8) edge = .next t) ∧
    exec (.enc 0#16 0#16) { edge with encL := ch 0 89 } = .fault .badStepIndex ∧
    exec (.dec 0x0F#8) { edge with decR := ch 0 89 } = .fault .badStepIndex ∧
    exec .rstEnc edge = .next edge.zeroEncoder ∧ exec .rstDec edge = .next edge.zeroDecoder :=
  ⟨witness_EachCommandKeepsEverythingElse.1, witness_EachCommandKeepsEverythingElse.2.1,
    enc_faults (.inl (by decide)), dec_faults (.inr (by decide)), rfl, rfl⟩

theorem witness_LanesAreIndependent :
    (∃ t, exec (.enc 0#16 0#16) edge = .next t) ∧
    (∃ t, exec (.enc 0#16 1#16) { edge with encR := ch 7 1 } = .next t) ∧
    (∃ t, exec (.enc 1#16 0#16) { edge with encL := ch 7 1 } = .next t) ∧
    (∃ t, exec (.dec 0x0F#8) edge = .next t) ∧
    (∃ t, exec (.dec 0x08#8) { edge with decR := ch 7 1 } = .next t) ∧
    (∃ t, exec (.dec 0x8F#8) { edge with decL := ch 7 1 } = .next t) ∧
    leftCode 0x0F#8 = leftCode 0x08#8 ∧ rightCode 0x0F#8 = rightCode 0x8F#8 :=
  ⟨enc_has_next (by decide) (by decide), enc_has_next (by decide) (by decide),
    enc_has_next (by decide) (by decide), dec_has_next (by decide) (by decide),
    dec_has_next (by decide) (by decide), dec_has_next (by decide) (by decide),
    by decide, by decide⟩

theorem witness_EncodeOfDecodeIsTheWord : decode 0x1FFFB0005#36 = .ok (.enc (-5#16) 5#16) := by decide

theorem witness_StepRunsTheDecodedCommand :
    (edge.issue 0x200000088#36).input = .command 0x200000088#36 :: edge.input ∧
    decode 0x200000088#36 = .ok (.dec 0x88#8) ∧ decode 0x000000000#36 = .error .reservedOpcode ∧
    decode 0x200000100#36 = .error .reservedBitsSet := by decide

theorem witness_PlacedTableWordRunsNext : decodeTableWord 40 0x10064FF9C = some (.enc 100#16 (-100#16)) := by decide

theorem witness_ReservedWordEndsTheRunWithItsMark :
    (edge.issue 0xF12345678#36).input = .command 0xF12345678#36 :: edge.input ∧
    decode 0xF12345678#36 = .error .reservedOpcode := by decide

theorem witness_FaultEndsTheRunUnfinished :
    ({ edge with encL := ch 0 89, input := [.command 0x100000000#36] } : State).input = [.command 0x100000000#36] ∧
    decode 0x100000000#36 = .ok (.enc 0#16 0#16) ∧
    exec (.enc 0#16 0#16) { edge with encL := ch 0 89, input := [] } = .fault .badStepIndex :=
  ⟨rfl, by decide, enc_faults (.inl (by decide))⟩

theorem witness_HardwareResetZeroesEveryChannel :
    (edge.scheduleFirst [.hardwareReset]).input = [.hardwareReset] ∧ (edge.scheduleFirst [.powerCycle]).input = [.powerCycle] :=
  ⟨rfl, rfl⟩

theorem witness_ResetDrawsEachUndeliveredResponse :
    ({ edge with input := [.hardwareReset], undelivered := [1#32, 2#32] } : State).input = [.hardwareReset] := rfl

theorem witness_ResponsesKeepCommandOrder :
    step { edge with input := [.takeResponse], undelivered := [1#32] } =
      .next { edge with delivered := [1#32] } ∧
    [HostEvent.takeResponse].head? ≠ some .hardwareReset ∧ [HostEvent.takeResponse].head? ≠ some .powerCycle :=
  ⟨rfl, by decide, by decide⟩

theorem witness_CoresAreIsolated :
    stepCore [edge, State.reset.issue 0x300000000#36] 1 = some (.next [edge, State.reset.onDrawStream 1]) := rfl

theorem witness_EveryStepKeepsTheRangeInvariant :
    RangeInvariant (edge.issue 0x400000000#36) ∧ step (edge.issue 0x400000000#36) = .next edge.zeroDecoder :=
  ⟨by decide, rfl⟩

theorem witness_StepCompletesUnlessTheWordIsReserved : RangeInvariant edge := by decide

/-- A state at the end of its run with a reset still to come. -/
theorem witness_RunEndsWhenCommandsAreDoneAndResponsesDelivered :
    (∀ w, HostEvent.command w ∉ (edge.scheduleFirst [.hardwareReset]).input) ∧
    (edge.scheduleFirst [.hardwareReset]).undelivered = [] :=
  ⟨fun w h => by simp [edge, regs] at h, rfl⟩

/-- A state with two legal words, a reset and an undelivered response. -/
theorem witness_RunsOfLegalWordsReachTheirEnd :
    RangeInvariant edge ∧
    ∀ w, HostEvent.command w ∈ [.command 0x100000000#36, .hardwareReset, .command 0x2000000FF#36] →
      CommandWord.wellFormed w = true := by
  refine ⟨by decide, fun w h => ?_⟩
  simp only [List.mem_cons, HostEvent.command.injEq, List.not_mem_nil, or_false, reduceCtorEq, false_or] at h
  rcases h with rfl | rfl <;> decide

/-- Two states with different ENC_L and different left samples to encode. -/
theorem witness_LeftSamplesNeverReachTheHost :
    SameButLeft { edge with input := [.command 0x100000005#36] }
      { edge with encL := ch 7 1, input := [.command 0x17FFF0005#36] } := by
  refine ⟨by decide, by decide, rfl, rfl, rfl, ?_, rfl, rfl, rfl, rfl⟩
  exact .cons (.inr (by decide)) .nil

theorem witness_DirectionsMayInterleaveAnyWay : RangeInvariant edge := by decide

theorem witness_DecoderStepTracksEncoderStep :
    encStep hardware 0#16 (ch 0 0) = .ok (8#4, ch 1 0) := by decide

theorem witness_DecoderReproducesTheRightChannel :
    InRange edge.encL ∧ InRange edge.encR ∧ InRange { edge with decR := edge.encR, decL := edge.encR }.decL ∧
    { edge with decR := edge.encR, decL := edge.encR }.decR = edge.encR ∧
    { edge with decR := edge.encR, decL := edge.encR }.decL =
      { edge with decR := edge.encR, decL := edge.encR }.decR := by decide

theorem witness_EncodeProcedureReturnsItsCommandsResponses :
    InRange edge.encL ∧ InRange edge.encR ∧ 0 < [0#16, 0#16, 5#16].length / 2 := by decide

theorem witness_DecodeProcedureReturnsItsCommandsResponses : InRange edge.decL ∧ InRange edge.decR := by decide

theorem witness_StreamProceduresObeyTheLengthLaws :
    InRange edge.encL ∧ InRange edge.encR ∧ InRange edge.decL ∧ InRange edge.decR := by decide

theorem witness_OddTrailingSampleIsDropped : [0#16, 0#16].length % 2 = 0 := by decide

theorem witness_EncodedStreamsDecodeToEqualChannels :
    InRange edge.encL ∧ InRange edge.encR ∧
    InRange State.reset.decL ∧ State.reset.decL = State.reset.decR := by decide

theorem witness_DecodingAStreamEndsInTheEncodersRightState :
    RangeInvariant { edge with decR := edge.encR } ∧
    { edge with decR := edge.encR }.decR = { edge with decR := edge.encR }.encR := by decide

end Sys2Proof.Tests
end

section
/-! PROOFS. The encode and decode directions are disjoint (R24): when ENCODE_PAIR and DECODE_BYTE fault depends on their own
direction's registers only, and where one completes it gives the same result beside any registers of the other direction. -/

namespace Sys2Proof.Machine

/-- ENCODE_PAIR faults exactly when an index it reads is not legal (R26, R152). -/
theorem encodePair_eq_fault_iff {cfg : Config} {l r : Sample} {s : State} {f : Fault} :
    encodePair cfg l r s = .fault f ↔ ¬ InRange s.encL ∨ ¬ InRange s.encR := by
  constructor
  · intro h
    by_contra hlegal
    obtain ⟨hl, hr⟩ : InRange s.encL ∧ InRange s.encR := by tauto
    simp [encodePair_of_inRange hl hr] at h
  · intro hbad
    cases f with
    | badStepIndex => exact encodePair_of_not_inRange hbad

/-- DECODE_BYTE faults exactly when an index it reads is not legal (R26, R152). -/
theorem decodeByte_eq_fault_iff {cfg : Config} {b : CodeByte} {s : State} {f : Fault} :
    decodeByte cfg b s = .fault f ↔ ¬ InRange s.decL ∨ ¬ InRange s.decR := by
  constructor
  · intro h
    by_contra hlegal
    obtain ⟨hl, hr⟩ : InRange s.decL ∧ InRange s.decR := by tauto
    simp [decodeByte_of_inRange hl hr] at h
  · intro hbad
    cases f with
    | badStepIndex => exact decodeByte_of_not_inRange hbad

/-- ENCODE_PAIR does not write the decode direction's registers. -/
theorem encodePair_next_keeps_decoder {cfg : Config} {l r : Sample} {s t : State}
    (h : encodePair cfg l r s = .next t) : t.decL = s.decL ∧ t.decR = s.decR := by
  obtain ⟨-, -, rfl⟩ := encodePair_cases h
  simp

/-- DECODE_BYTE does not write the encode direction's registers. -/
theorem decodeByte_next_keeps_encoder {cfg : Config} {b : CodeByte} {s t : State}
    (h : decodeByte cfg b s = .next t) : t.encL = s.encL ∧ t.encR = s.encR := by
  obtain ⟨-, -, rfl⟩ := decodeByte_cases h
  simp

/-- Where ENCODE_PAIR faults, it faults alike whatever the decode direction holds. -/
theorem encodePair_fault_of_any_decoder {cfg : Config} {l r : Sample} {s : State} {f : Fault} (x y : Channel)
    (h : encodePair cfg l r s = .fault f) : encodePair cfg l r { s with decL := x, decR := y } = .fault f := by
  have hbad : ¬ InRange s.encL ∨ ¬ InRange s.encR := encodePair_eq_fault_iff.mp h
  exact encodePair_eq_fault_iff.mpr hbad

/-- Where DECODE_BYTE faults, it faults alike whatever the encode direction holds. -/
theorem decodeByte_fault_of_any_encoder {cfg : Config} {b : CodeByte} {s : State} {f : Fault} (x y : Channel)
    (h : decodeByte cfg b s = .fault f) : decodeByte cfg b { s with encL := x, encR := y } = .fault f := by
  have hbad : ¬ InRange s.decL ∨ ¬ InRange s.decR := decodeByte_eq_fault_iff.mp h
  exact decodeByte_eq_fault_iff.mpr hbad

/-- Where ENCODE_PAIR completes, it does the same whatever the decode direction holds. -/
theorem encodePair_next_of_any_decoder {cfg : Config} {l r : Sample} {s t : State} (x y : Channel)
    (h : encodePair cfg l r s = .next t) :
    encodePair cfg l r { s with decL := x, decR := y } = .next { t with decL := x, decR := y } := by
  obtain ⟨hl, hr, rfl⟩ := encodePair_cases h
  exact encodePair_of_inRange hl hr

/-- Where DECODE_BYTE completes, it does the same whatever the encode direction holds. -/
theorem decodeByte_next_of_any_encoder {cfg : Config} {b : CodeByte} {s t : State} (x y : Channel)
    (h : decodeByte cfg b s = .next t) :
    decodeByte cfg b { s with encL := x, encR := y } = .next { t with encL := x, encR := y } := by
  obtain ⟨hl, hr, rfl⟩ := decodeByte_cases h
  exact decodeByte_of_inRange hl hr

/-- Settles O20: a command's fault and its result depend on its own direction only, and a reset zeroes its own direction
only. -/
theorem directionsAreDisjoint : Obligations.DirectionsAreDisjoint := by
  unfold Obligations.DirectionsAreDisjoint
  refine ⟨fun l r s x y => ⟨fun f h => ?_, fun t h => ?_⟩, fun b s x y => ⟨fun f h => ?_, fun t h => ?_⟩,
    fun s t h => ?_, fun s t h => ?_⟩
  · exact encodePair_fault_of_any_decoder x y h
  · obtain ⟨hdecL, hdecR⟩ := encodePair_next_keeps_decoder h
    exact ⟨hdecL, hdecR, encodePair_next_of_any_decoder x y h⟩
  · exact decodeByte_fault_of_any_encoder x y h
  · obtain ⟨hencL, hencR⟩ := decodeByte_next_keeps_encoder h
    exact ⟨hencL, hencR, decodeByte_next_of_any_encoder x y h⟩
  · rw [exec_rstEnc] at h
    injection h with h
    simp [← h]
  · rw [exec_rstDec] at h
    injection h with h
    simp [← h]

end Sys2Proof.Machine
end

section
/-! PROOFS. The datapath (40_datapath.md): the quantizer (R81), the reconstruction term (R83), the saturating updates of a
channel (R84, R85) and the two channel steps (R88, R89), against the spec's formulas over exact integers. -/

namespace Sys2Proof.Machine

@[simp] theorem Channel.advance_predicted (cfg : Config) (st : Channel) (c : Code) :
    (st.advance cfg c).predicted = predict st.predicted c (stepSize cfg st.stepIndex) := rfl

@[simp] theorem Channel.advance_stepIndex (cfg : Config) (st : Channel) (c : Code) :
    (st.advance cfg c).stepIndex = adapt st.stepIndex c := rfl

/-- The step `stepBySpec` reads is the model's own lookup. -/
theorem stepBySpec_eq (cfg : Config) (st : Channel) : stepBySpec cfg st = (stepSize cfg st.stepIndex : Int) := rfl

/-- A table that meets R27 has 89 entries, all positive. -/
theorem Config.entries_of_wellFormed {cfg : Config} (h : cfg.wellFormed = true) :
    cfg.stepTable.length = 89 ∧ ∀ x ∈ cfg.stepTable, 0 < x := by
  simp only [Config.wellFormed, Bool.and_eq_true, beq_iff_eq, List.all_eq_true, decide_eq_true_eq] at h
  obtain ⟨⟨⟨⟨hlen, hpos⟩, -⟩, -⟩, -⟩ := h
  exact ⟨hlen, hpos⟩

/-- No channel step divides by zero: at a legal index, a table that meets R27 has a positive step (R80). -/
theorem stepSize_pos {cfg : Config} {i : StepIndex} (hcfg : cfg.wellFormed = true) (hi : i.toNat ≤ 88) :
    0 < stepSize cfg i := by
  obtain ⟨hlen, hpos⟩ := Config.entries_of_wellFormed hcfg
  have hlt : i.toNat < cfg.stepTable.length := by omega
  rw [stepSize, List.getD_eq_getElem _ _ hlt]
  exact hpos _ (List.getElem_mem hlt)

/-- At a positive step, where R9 defines `tdiv`, the quantizer's code is R81's. -/
theorem quantize_eq_codeBySpec {s p : Sample} {step : Nat} (hstep : 0 < step) :
    ((quantize s p step).toNat : Int) = codeBySpec s.toInt p.toInt step := by
  rw [quantize_value, tdiv_eq_sign_mul (by exact_mod_cast hstep)]
  rfl

/-- The predictor update is R84's, with R83's term as a difference of floors. -/
theorem predict_eq_saturate (p : Sample) (c : Code) (step : Nat) :
    (predict p c step).toInt = saturate (p.toInt + deltaBySpec c.toNat step) (-32768) 32767 := by
  rw [predict_value, delta_eq]

/-- The step-index update is R85's, with R28's adjustment by its shape. -/
theorem adapt_eq_saturate (i : StepIndex) (c : Code) :
    ((adapt i c).toNat : Int) = saturate (i.toNat + adjBySpec c.toNat) 0 88 := by
  rw [adapt_value, adj_eq]

/-- A channel advances as R84 and R85 say, at the step of its old index. -/
theorem advancesTo_advance (cfg : Config) (st : Channel) (c : Code) :
    AdvancesTo st c.toNat (stepBySpec cfg st) (st.advance cfg c) := by
  rw [stepBySpec_eq]
  exact ⟨predict_eq_saturate .., adapt_eq_saturate ..⟩

/-- Settles O6: the shifts are divisions by powers of two (`delta_eq`), and both products are of naturals. -/
theorem reconstructionTermIsTheDifferenceOfFloors : Obligations.ReconstructionTermIsTheDifferenceOfFloors := by
  unfold Obligations.ReconstructionTermIsTheDifferenceOfFloors
  intro c step
  exact ⟨by positivity, by positivity, delta_eq c step⟩

/-- Settles O4: at a positive divisor the model's `tdiv` is sign times floor of magnitudes. -/
theorem quantizerIsTheTruncatedQuotientClamped : Obligations.QuantizerIsTheTruncatedQuotientClamped := by
  unfold Obligations.QuantizerIsTheTruncatedQuotientClamped
  intro s p step hstep
  exact quantize_eq_codeBySpec hstep

/-- Settles O7: saturation for every operand, the clamped code in the encoder step, one nibble for each decoder lane. -/
theorem predictorUpdateSaturates : Obligations.PredictorUpdateSaturates := by
  unfold Obligations.PredictorUpdateSaturates
  refine ⟨predict_eq_saturate, fun cfg s st hst => ?_, fun cfg b s hl hr => ?_⟩
  · exact ⟨_, encStep_of_inRange hst, Channel.advance_predicted ..⟩
  · exact ⟨_, decodeByte_of_inRange hl hr, Channel.advance_predicted .., Channel.advance_predicted ..⟩

/-- Settles O8: the raw sum's bounds are those of the adjustments, and both updates read the old index. -/
theorem stepIndexUpdateSaturates : Obligations.StepIndexUpdateSaturates := by
  unfold Obligations.StepIndexUpdateSaturates
  refine ⟨fun i c hi => ?_, fun cfg st c => ⟨Channel.advance_predicted .., Channel.advance_stepIndex ..⟩⟩
  obtain ⟨hlo, hhi⟩ := adj_bounds c
  exact ⟨adapt_eq_saturate i c, by omega, by omega⟩

/-- Settles O11: a table that meets R27 gives the quantizer a positive step at every index that does not fault. -/
theorem encoderChannelStep : Obligations.EncoderChannelStep := by
  unfold Obligations.EncoderChannelStep
  intro cfg s st hcfg
  refine ⟨encStep_of_not_inRange, fun hst => ⟨_, _, encStep_of_inRange hst, ?_, advancesTo_advance ..⟩⟩
  rw [stepBySpec_eq]
  exact quantize_eq_codeBySpec (stepSize_pos hcfg hst)

/-- Settles O12: the decoder divides by nothing, so no constraint on the table is needed. -/
theorem decoderChannelStep : Obligations.DecoderChannelStep := by
  unfold Obligations.DecoderChannelStep
  intro cfg c st
  exact ⟨decStep_of_not_inRange, fun hst => ⟨_, decStep_of_inRange hst, advancesTo_advance ..⟩⟩

end Sys2Proof.Machine
end

section
/-! PROOFS. The encode family (41_encode.md): the word, the completion and the response of ENCODE_PAIR (R100, R101), and
ENCODE of an odd or an empty list of samples (R106). -/

namespace Sys2Proof.Machine

/-- The default table meets R27, so the laws of every such table are laws of this hardware. -/
theorem hardware_wellFormed : hardware.wellFormed = true := by decide

/-- The word of an ENCODE_PAIR decodes to it, for every operand (R62). -/
theorem decode_encode_enc (l r : Sample) : decode (encode (.enc l r)) = .ok (.enc l r) := by
  obtain ⟨hop, hl, hr⟩ := fields_encode_enc l r
  simp [decode, hop, hl, hr]

/-- At a legal index an encoder lane's code is R81's, and the channel it is left in is advanced by that code. -/
theorem encNext_spec (x : Sample) {st : Channel} (hst : InRange st) :
    let code := quantize x st.predicted (stepSize hardware st.stepIndex)
    (code.toNat : Int) = codeBySpec x.toInt st.predicted.toInt (stepBySpec hardware st) ∧
      AdvancesTo st code.toNat (stepBySpec hardware st) (encNext hardware x st) := by
  refine ⟨?_, advancesTo_advance ..⟩
  rw [stepBySpec_eq]
  exact quantize_eq_codeBySpec (stepSize_pos hardware_wellFormed hst)

/-- The response of ENCODE_PAIR is a number whose two low nibbles are the right code (R101). -/
theorem encodeResponse_packByte (c : Code) :
    encodeResponse (packByte c) = BitVec.ofNat 32 (16 * c.toNat + c.toNat) := by
  revert c; decide

/-- Settles O14: the word by its fields, each lane by `encNext_spec`, the frame by the laws of `respond`. -/
theorem encodePairCommand : Obligations.EncodePairCommand := by
  unfold Obligations.EncodePairCommand
  refine ⟨decode_encode_enc, fun l r s hl hr => ?_, fun l r s => encodePair_of_not_inRange⟩
  obtain ⟨hcodeL, hadvL⟩ := encNext_spec l hl
  obtain ⟨hcodeR, hadvR⟩ := encNext_spec r hr
  refine ⟨_, _, _, encodePair_of_inRange hl hr, hcodeL, hcodeR, hadvL, hadvR, ?_, rfl, rfl, rfl, rfl, rfl, rfl⟩
  rw [State.respond_undelivered, encodeResponse_packByte]

/-- Behind whole pairs, a single sample adds no command (R106). -/
theorem encodeCommands_append_single (x : Sample) :
    ∀ pcm : List Sample, pcm.length % 2 = 0 → encodeCommands (pcm ++ [x]) = encodeCommands pcm
  | [], _ => rfl
  | [_], hodd => absurd hodd (by simp)
  | l :: r :: rest, heven => by
    have hrest : rest.length % 2 = 0 := by
      rw [List.length_cons, List.length_cons] at heven
      omega
    simp [encodeCommands, encodeCommands_append_single x rest hrest]

/-- ENCODE of no samples leaves the state as it is and returns no byte (R106). -/
theorem encodeProcedure_nil (s : State) : encodeProcedure [] s = (⟨s, none⟩, []) := by
  simp [encodeProcedure, encodeCommands, runProcedure_nil, RunRecord.responsesSince, encodeOutput]

/-- RESET_ENCODER issued alone zeroes the encoder and completes. -/
theorem runCommands_rstEnc (s : State) : runCommands [.rstEnc] s = ⟨s.zeroEncoder, none⟩ := rfl

/-- Settles O50: the odd sample adds no command, and an empty ENCODE after the reset keeps its zeroed registers. -/
theorem oddTrailingSampleIsDropped : Obligations.OddTrailingSampleIsDropped := by
  unfold Obligations.OddTrailingSampleIsDropped
  refine ⟨fun pcm x s heven => ?_, encodeProcedure_nil, fun s => ?_⟩
  · simp only [encodeProcedure, encodeCommands_append_single x pcm heven]
  · rw [runCommands_rstEnc, encodeProcedure_nil]
    exact ⟨rfl, rfl⟩

end Sys2Proof.Machine
end

section
/-! PROOFS. The decode family (42_decode.md): the word, the completion and the response of DECODE_BYTE (R120, R122), and the
code each lane takes from the byte (R121). -/

namespace Sys2Proof.Machine

/-- The left code is the byte's high nibble, as a number (R121). -/
theorem leftCode_toNat (b : CodeByte) : (leftCode b).toNat = b.toNat / 16 := by
  have hb : b.toNat / 16 < 16 := by omega
  rw [leftCode, BitVec.extractLsb'_toNat, Nat.shiftRight_eq_div_pow, Nat.mod_eq_of_lt hb]

/-- The right code is the byte's low nibble, as a number (R121). -/
theorem rightCode_toNat (b : CodeByte) : (rightCode b).toNat = b.toNat % 16 := by
  rw [rightCode, BitVec.extractLsb'_toNat, Nat.shiftRight_zero]

/-- Settles O22: taking bits 7..4 divides by 16, and taking bits 3..0 leaves the remainder. -/
theorem nibblesAreHighLeftLowRight : Obligations.NibblesAreHighLeftLowRight := by
  unfold Obligations.NibblesAreHighLeftLowRight
  exact fun b => ⟨leftCode_toNat b, rightCode_toNat b⟩

/-- The word of a DECODE_BYTE decodes to it, for every byte (R63). -/
theorem decode_encode_dec (b : CodeByte) : decode (encode (.dec b)) = .ok (.dec b) := by
  obtain ⟨hop, hreserved, hbyte⟩ := fields_encode_dec b
  simp [decode, hop, hreserved, hbyte]

/-- The host reads the left sample back from a response of DECODE_BYTE (R122, R124). -/
@[simp] theorem responseLeft_decodeResponse (l r : Sample) : responseLeft (decodeResponse l r) = l :=
  BitVec.extractLsb'_append_eq_left

/-- The host reads the right sample back from a response of DECODE_BYTE (R122, R124). -/
@[simp] theorem responseRight_decodeResponse (l r : Sample) : responseRight (decodeResponse l r) = r :=
  BitVec.extractLsb'_append_eq_right

/-- The left decoder lane advances by the byte's high nibble (R89, R121). -/
theorem advancesTo_highNibble (cfg : Config) (st : Channel) (b : CodeByte) :
    AdvancesTo st (b.toNat / 16 : Nat) (stepBySpec cfg st) (st.advance cfg (leftCode b)) := by
  rw [← leftCode_toNat]
  exact advancesTo_advance ..

/-- The right decoder lane advances by the byte's low nibble (R89, R121). -/
theorem advancesTo_lowNibble (cfg : Config) (st : Channel) (b : CodeByte) :
    AdvancesTo st (b.toNat % 16 : Nat) (stepBySpec cfg st) (st.advance cfg (rightCode b)) := by
  rw [← rightCode_toNat]
  exact advancesTo_advance ..

/-- Settles O15: the word by its fields, each lane by its nibble, the response by its halves. -/
theorem decodeByteCommand : Obligations.DecodeByteCommand := by
  unfold Obligations.DecodeByteCommand
  refine ⟨decode_encode_dec, fun b s hl hr => ?_, fun b s => decodeByte_of_not_inRange⟩
  exact ⟨_, _, decodeByte_of_inRange hl hr, advancesTo_highNibble .., advancesTo_lowNibble ..,
    State.respond_undelivered .., responseLeft_decodeResponse .., responseRight_decodeResponse ..,
    rfl, rfl, rfl, rfl, rfl, rfl⟩

end Sys2Proof.Machine
end

section
/-! PROOFS. The reset family (43_reset.md): the one word of each reset command, its completion from every state (R140, R141),
and R140's worked example. -/

namespace Sys2Proof.Machine

/-- A command without a response, which is a reset, is spelled by its own word only (R64, R65). -/
theorem word_of_decode_reset {w : CommandWord} {i : Instr} (hi : hasResponse i = false) (h : decode w = .ok i) :
    w = encode i := by
  revert h
  apply decode_cases w fun answer => answer = .ok i → w = encode i
  case enc => rintro - ⟨⟩; cases hi
  case dec => rintro - - ⟨⟩; cases hi
  case rstEnc => rintro rfl ⟨⟩; rfl
  case rstDec => rintro rfl ⟨⟩; rfl
  case decReserved | rstEncReserved | rstDecReserved => rintro - - ⟨⟩
  case opcode => rintro - ⟨⟩

/-- The initial stream condition is a legal index, so a reset clears an illegal one (R26). -/
theorem inRange_zero : InRange Channel.zero := by decide

/-- R140's worked example in the right lane: from predictor 0 and step 7, the code of -1000 is clamped to 0. -/
theorem encodeResponse_of_zero_channel :
    encodeResponse (packByte (quantize (-1000#16) Channel.zero.predicted (stepSize hardware Channel.zero.stepIndex))) =
      0x00000000#32 := by
  decide

/-- Settles O16: the word by `word_of_decode_reset`; after the reset both lanes are at the initial stream condition. -/
theorem resetEncoderCommand : Obligations.ResetEncoderCommand := by
  unfold Obligations.ResetEncoderCommand
  refine ⟨fun w => ⟨word_of_decode_reset rfl, ?_⟩, exec_rstEnc, fun s t h => ?_⟩
  · rintro rfl
    decide
  · rw [exec_rstEnc] at h
    injection h with h
    subst h
    refine ⟨_, encodePair_of_inRange (s := s.zeroEncoder) inRange_zero inRange_zero, ?_⟩
    rw [State.respond_undelivered, State.zeroEncoder_encR, encodeResponse_of_zero_channel, State.zeroEncoder_undelivered]

/-- Settles O17: the word by `word_of_decode_reset`, the next state by the equation of `rst.dec`. -/
theorem resetDecoderCommand : Obligations.ResetDecoderCommand := by
  unfold Obligations.ResetDecoderCommand
  refine ⟨fun w => ⟨word_of_decode_reset rfl, ?_⟩, exec_rstDec⟩
  rintro rfl
  decide

end Sys2Proof.Machine
end

section
/-! PROOFS. The decoder and the encoder of R62 to R67: they are inverse to each other, the decoder accepts exactly the rows of
the opcode table, and the reserved space is refused by its reason (R151). -/

namespace Sys2Proof.Machine

/-- Decoding undoes encoding, for every command and operand (R62 to R65, R67). -/
@[simp] theorem decode_encode (i : Instr) : decode (encode i) = .ok i := by
  cases i with
  | enc l r => exact decode_encode_enc l r
  | dec b => exact decode_encode_dec b
  | rstEnc => decide
  | rstDec => decide

/-- Settles O25: constructor by constructor, by the fields of the encoded word. -/
theorem decodeOfEncodeIsTheCommand : Obligations.DecodeOfEncodeIsTheCommand := by
  unfold Obligations.DecodeOfEncodeIsTheCommand
  exact decode_encode

/-- A word is its opcode, left and right fields side by side (R60, R62). -/
theorem op_append_left_append_right (w : CommandWord) : opField w ++ leftField w ++ rightField w = w := by
  unfold opField leftField rightField
  rw [BitVec.extractLsb'_append_extractLsb'_eq_extractLsb' (rfl : 32 = 16 + 16),
    BitVec.extractLsb'_append_extractLsb'_eq_extractLsb' (rfl : 16 = 0 + 16), BitVec.extractLsb'_eq_self]

/-- A word is its opcode, the bits DECODE_BYTE reserves and its byte field side by side (R60, R63). -/
theorem op_append_reserved_append_byte (w : CommandWord) : opField w ++ decReservedField w ++ byteField w = w := by
  unfold opField decReservedField byteField
  rw [BitVec.extractLsb'_append_extractLsb'_eq_extractLsb' (rfl : 32 = 8 + 24),
    BitVec.extractLsb'_append_extractLsb'_eq_extractLsb' (rfl : 8 = 0 + 8), BitVec.extractLsb'_eq_self]

/-- The opcode field is the word divided by 2^32. -/
theorem opField_eq_of_div {w : CommandWord} {n : Nat} (h : w.toNat / 2 ^ 32 = n) : opField w = BitVec.ofNat 4 n := by
  apply BitVec.eq_of_toNat_eq
  obtain ⟨hop, -⟩ := fields_toNat w
  rw [BitVec.toNat_ofNat, ← h, ← hop, Nat.mod_eq_of_lt (opField w).isLt]

/-- A command has one word only (R62 to R67). -/
theorem encode_of_decode {w : CommandWord} {i : Instr} (h : decode w = .ok i) : encode i = w := by
  revert h
  apply decode_cases w fun answer => answer = .ok i → encode i = w
  case enc =>
    rintro hop ⟨⟩
    rw [encode, ← opField_eq_of_div hop, op_append_left_append_right]
  case dec =>
    rintro hop hzero ⟨⟩
    obtain ⟨-, -, -, -, -, hfield⟩ := fields_toNat w
    have hreserved : decReservedField w = 0#24 := BitVec.eq_of_toNat_eq (hfield.trans hzero)
    rw [encode, ← opField_eq_of_div hop, ← hreserved, op_append_reserved_append_byte]
  case rstEnc | rstDec => rintro rfl ⟨⟩; rfl
  case decReserved | rstEncReserved | rstDecReserved => rintro - - ⟨⟩
  case opcode => rintro - ⟨⟩

/-- Settles O26: the encoder puts the fields back where the decoder read them. -/
theorem encodeOfDecodeIsTheWord : Obligations.EncodeOfDecodeIsTheWord := by
  unfold Obligations.EncodeOfDecodeIsTheWord
  exact fun w i => encode_of_decode

/-- A word that matches a row has the row's pattern in every field that the row's mask fixes. -/
theorem extractLsb'_of_admits {r : OpcodeRow} {w : CommandWord} {start len : Nat} (h : r.admits w = true)
    (hmask : r.mask.extractLsb' start len = BitVec.allOnes len) :
    w.extractLsb' start len = r.pattern.extractLsb' start len := by
  rw [← eq_of_beq h, BitVec.extractLsb'_and, hmask, BitVec.and_allOnes]

/-- Every row fixes the whole opcode field (R62 to R65). -/
theorem opField_of_admits {r : OpcodeRow} (hr : r ∈ opcodeRows) {w : CommandWord} (h : r.admits w = true) :
    opField w = opField r.pattern := by
  have hmask : ∀ r ∈ opcodeRows, opField r.mask = BitVec.allOnes 4 := by decide
  exact extractLsb'_of_admits h (hmask r hr)

/-- A word that matches a row of the opcode table decodes (R62 to R65). -/
theorem decode_of_wellFormed {w : CommandWord} (h : CommandWord.wellFormed w = true) : ∃ i, decode w = .ok i := by
  obtain ⟨r, hr, hw⟩ := List.any_eq_true.mp h
  have hop := opField_of_admits hr hw
  simp only [opcodeRows, List.mem_cons, List.not_mem_nil, or_false] at hr
  rcases hr with rfl | rfl | rfl | rfl
  · change opField w = 0x1#4 at hop
    simp [decode, hop]
  · change opField w = 0x2#4 at hop
    have hreserved : decReservedField w = 0#24 := extractLsb'_of_admits hw (by decide)
    simp [decode, hop, hreserved]
  · change opField w = 0x3#4 at hop
    have hpayload : payloadField w = 0#32 := extractLsb'_of_admits hw (by decide)
    simp [decode, hop, hpayload]
  · change opField w = 0x4#4 at hop
    have hpayload : payloadField w = 0#32 := extractLsb'_of_admits hw (by decide)
    simp [decode, hop, hpayload]

/-- The word of a command matches a row of the opcode table. -/
theorem wellFormed_encode (i : Instr) : CommandWord.wellFormed (encode i) = true := by
  refine List.any_eq_true.mpr ⟨Laws.OpcodeRow.row i, ?_, ?_⟩
  · cases i <;> simp [Laws.OpcodeRow.row, opcodeRows]
  · cases i with
    | enc l r => exact Laws.OpcodeRow.enc l r
    | dec b => exact Laws.OpcodeRow.dec b
    | rstEnc => exact Laws.OpcodeRow.rstEnc
    | rstDec => exact Laws.OpcodeRow.rstDec

/-- The decoder accepts exactly the words of the opcode table. -/
theorem exists_decode_iff_wellFormed (w : CommandWord) :
    (∃ i, decode w = .ok i) ↔ CommandWord.wellFormed w = true := by
  refine ⟨fun ⟨i, hi⟩ => ?_, decode_of_wellFormed⟩
  rw [← encode_of_decode hi]
  exact wellFormed_encode i

/-- Settles O27: an accepted word is an encoding, and two rows differ in the opcode that both fix. -/
theorem acceptedWordsAreTheOpcodeTableRows : Obligations.AcceptedWordsAreTheOpcodeTableRows := by
  unfold Obligations.AcceptedWordsAreTheOpcodeTableRows
  refine ⟨exists_decode_iff_wellFormed, fun w => ?_⟩
  have hdistinct : opcodeRows.Pairwise fun a b => opField a.pattern ≠ opField b.pattern := by decide
  refine hdistinct.imp_of_mem fun ha hb hne => ?_
  rintro ⟨hwa, hwb⟩
  exact hne ((opField_of_admits ha hwa).symm.trans (opField_of_admits hb hwb))

/-- Settles O28: each answer of the decoder comes with the values of the word it is given for, and these exclude each other. -/
theorem reservedWordsAreRefusedByReason : Obligations.ReservedWordsAreRefusedByReason := by
  unfold Obligations.ReservedWordsAreRefusedByReason
  intro w
  apply decode_cases w fun answer => (answer = .error .reservedOpcode ↔ _) ∧ (answer = .error .reservedBitsSet ↔ _)
  case rstEnc | rstDec => rintro rfl; simp
  all_goals intros; simp; omega

/-- Settles O24: evaluation of the decoder at the four words. -/
theorem writtenOutWordsDecode : Obligations.WrittenOutWordsDecode := by
  unfold Obligations.WrittenOutWordsDecode
  decide

end Sys2Proof.Machine
end

section
/-! PROOFS. The assembler (R71): it reads the text that `showInstr` writes of a command, operand by operand. -/

namespace Sys2Proof.Machine

/-- A digit is read back as the nibble it was written for. -/
@[simp] theorem hexDigitValue_hexDigit (n : Code) : hexDigitValue (hexDigit n) = some n.toNat := by
  revert n; decide

/-- A digit is no blank, so it ends no word and is trimmed off no operand. -/
@[simp] theorem isBlank_hexDigit (n : Code) : isBlank (hexDigit n) = false := by
  revert n; decide

/-- A digit starts no comment. -/
@[simp] theorem hexDigit_ne_semicolon (n : Code) : hexDigit n ≠ ';' := by
  revert n; decide

/-- A digit separates no operands. -/
@[simp] theorem hexDigit_ne_comma (n : Code) : hexDigit n ≠ ',' := by
  revert n; decide

/-- A sample is read back from the text `0x....` written of it. -/
theorem readSample_showSample (s : Sample) : readSample (showSample s) = some s := by
  have hvalue : readSample (showSample s) = some (BitVec.ofNat 16
      (16 * (16 * (16 * (s.toNat / 4096 % 16) + s.toNat / 256 % 16) + s.toNat / 16 % 16) + s.toNat % 16)) := by
    simp [showSample, readSample, readHex, readDigits, Nat.shiftRight_eq_div_pow]
  rw [hvalue, Option.some_inj]
  apply BitVec.eq_of_toNat_eq
  rw [BitVec.toNat_ofNat]
  omega

/-- A byte is read back from the text `0x..` written of it. -/
theorem readByte_showByte (b : CodeByte) : readByte (showByte b) = some b := by
  have hvalue : readByte (showByte b) = some (BitVec.ofNat 8 (16 * (b.toNat / 16 % 16) + b.toNat % 16)) := by
    simp [showByte, readByte, readHex, readDigits, Nat.shiftRight_eq_div_pow]
  rw [hvalue, Option.some_inj]
  apply BitVec.eq_of_toNat_eq
  rw [BitVec.toNat_ofNat]
  omega

/-- A command's own text holds no comment. -/
theorem stripComment_showInstr (i : Instr) : stripComment (showInstr i) = showInstr i := by
  cases i <;> simp [stripComment, showInstr, showSample, showByte]

/-- Which of the characters that stand in the text of an ENCODE_PAIR or a DECODE_BYTE beside its digits are blanks. -/
theorem isBlank_of_literals :
    isBlank ' ' = true ∧ isBlank 'e' = false ∧ isBlank 'n' = false ∧ isBlank 'c' = false ∧ isBlank 'd' = false ∧
      isBlank '0' = false ∧ isBlank 'x' = false := by decide

/-- The text of an ENCODE_PAIR is cut into its mnemonic and its two sample operands. -/
theorem assembleLine_showInstr_enc (l r : Sample) :
    assembleLine (showInstr (.enc l r)) = assembleEnc [showSample l, showSample r] := by
  rw [assembleLine, stripComment_showInstr]
  simp [showInstr, showSample, trim, splitCommas, isBlank_of_literals]

/-- The text of a DECODE_BYTE is cut into its mnemonic and its byte operand. -/
theorem assembleLine_showInstr_dec (b : CodeByte) : assembleLine (showInstr (.dec b)) = assembleDec [showByte b] := by
  rw [assembleLine, stripComment_showInstr]
  simp [showInstr, showByte, trim, splitCommas, isBlank_of_literals]

/-- Settles O29: the line is cut into mnemonic and operands, and each operand is read back. -/
theorem assemblingTheTextOfACommandGivesIt : Obligations.AssemblingTheTextOfACommandGivesIt := by
  unfold Obligations.AssemblingTheTextOfACommandGivesIt
  intro i
  cases i with
  | enc l r => simp [assembleLine_showInstr_enc, assembleEnc, readSample_showSample]
  | dec b => simp [assembleLine_showInstr_dec, assembleDec, readByte_showByte]
  | rstEnc => decide
  | rstDec => decide

end Sys2Proof.Machine
end

section
/-! PROOFS. What the spec derives of the datapath: the range of the steps (R80), the floor form of the quantizer (R82), the ranges
of the intermediate values (R86), the signs of the reconstruction term (R87), the saturated predictor (90_conflicts.md C4) and
the decoder step on the encoder's code (R90). -/

namespace Sys2Proof.Machine

/-! ### The step-size table -/

/-- A table that meets R27 does not decrease from one index to the next, and its ends are 7 and 32767. -/
theorem Config.order_of_wellFormed {cfg : Config} (h : cfg.wellFormed = true) :
    (∀ i < 88, cfg.stepTable.getD i 0 ≤ cfg.stepTable.getD (i + 1) 0) ∧
      cfg.stepTable.getD 0 0 = 7 ∧ cfg.stepTable.getD 88 0 = 32767 := by
  simp only [Config.wellFormed, Bool.and_eq_true, beq_iff_eq, List.all_eq_true, List.mem_range, decide_eq_true_eq] at h
  obtain ⟨⟨⟨-, horder⟩, hfirst⟩, hlast⟩ := h
  exact ⟨horder, hfirst, hlast⟩

/-- A table that meets R27 does not decrease over any number of indices. -/
theorem Config.getD_le_getD_of_wellFormed {cfg : Config} (h : cfg.wellFormed = true) {i j : Nat} (hij : i ≤ j)
    (hj : j ≤ 88) : cfg.stepTable.getD i 0 ≤ cfg.stepTable.getD j 0 := by
  obtain ⟨horder, -, -⟩ := Config.order_of_wellFormed h
  induction j, hij using Nat.le_induction with
  | base => exact le_rfl
  | succ j _ ih => exact (ih (by omega)).trans (horder j (by omega))

/-- At a legal index, a table that meets R27 has a step in [7, 32767] (R80). -/
theorem stepSize_bounds {cfg : Config} {i : StepIndex} (h : cfg.wellFormed = true) (hi : i.toNat ≤ 88) :
    7 ≤ stepSize cfg i ∧ stepSize cfg i ≤ 32767 := by
  obtain ⟨-, hfirst, hlast⟩ := Config.order_of_wellFormed h
  exact ⟨hfirst.ge.trans (Config.getD_le_getD_of_wellFormed h (Nat.zero_le _) hi),
    (Config.getD_le_getD_of_wellFormed h hi le_rfl).trans hlast.le⟩

/-- Settles O2: by induction over the table from its first entry and to its last one. -/
theorem everyStepLiesBetween7And32767 : Obligations.EveryStepLiesBetween7And32767 := by
  unfold Obligations.EveryStepLiesBetween7And32767
  exact fun cfg i => stepSize_bounds

/-- Settles O1: evaluation of the constraints on the default table. -/
theorem hardwareStepTableMeetsItsConstraints : Obligations.HardwareStepTableMeetsItsConstraints := by
  unfold Obligations.HardwareStepTableMeetsItsConstraints
  exact hardware_wellFormed

/-- The index adjustments are symmetric (R28). -/
theorem adj_complement (c : Code) : adj c = adj (15#4 - c) := by
  revert c; decide

/-- Settles O3: the table is the literal by definition, and its entries are checked code by code. -/
theorem indexAdjustmentsAreTheLiteral : Obligations.IndexAdjustmentsAreTheLiteral := by
  unfold Obligations.IndexAdjustmentsAreTheLiteral
  refine ⟨rfl, fun c => ?_⟩
  obtain ⟨hlo, hhi⟩ := adj_bounds c
  exact ⟨adj_eq c, hlo, hhi, adj_complement c⟩

/-! ### The quantizer -/

/-- A truncated quotient of a negative number is no positive number. -/
theorem tdiv_nonpos {n step : Int} (hn : n ≤ 0) (hstep : 0 < step) : tdiv n step ≤ 0 := by
  have hopposite : 0 ≤ Int.tdiv (-n) step := Int.tdiv_nonneg (by omega) hstep.le
  rw [Int.neg_tdiv] at hopposite
  unfold tdiv
  omega

/-- After the clamp to [0, 15] it makes no difference whether the quotient is truncated or floored (R82): they differ on
negative numerators only, and there both are clamped to 0. -/
theorem saturate_tdiv_eq_saturate_fdiv {n step : Int} (hstep : 0 < step) :
    saturate (tdiv n step) 0 15 = saturate (Int.fdiv n step) 0 15 := by
  rcases le_or_gt 0 n with hn | hn
  · rw [tdiv, Int.tdiv_eq_ediv_of_nonneg hn, Int.fdiv_eq_ediv_of_nonneg _ hstep.le]
  · have htrunc : tdiv n step ≤ 0 := tdiv_nonpos hn.le hstep
    have hfloor : Int.fdiv n step < 0 := Int.fdiv_neg_of_neg_of_pos hn hstep
    unfold saturate
    omega

/-- The closed form of the quantizer (R82). -/
theorem quantize_eq_saturate_fdiv {s p : Sample} {step : Nat} (hstep : 0 < step) :
    ((quantize s p step).toNat : Int) = saturate (8 + Int.fdiv (4 * (s.toInt - p.toInt)) step) 0 15 := by
  have hpos : (0 : Int) < step := by exact_mod_cast hstep
  have hn : (s.toInt - p.toInt) * 4 + (step : Int) * 8 = 4 * (s.toInt - p.toInt) + 8 * step := by ring
  rw [quantize_value, saturate_tdiv_eq_saturate_fdiv hpos, hn, Int.add_mul_fdiv_right _ _ hpos.ne', Int.add_comm]

/-- The threshold of a code (R82): the code is at least `c` exactly when `4 d` is at least `(c - 8) step`. -/
theorem le_quantize_iff {s p : Sample} {step : Nat} (hstep : 0 < step) {c : Nat} (hc : 1 ≤ c) (hc' : c ≤ 15) :
    c ≤ (quantize s p step).toNat ↔ ((c : Int) - 8) * step ≤ 4 * (s.toInt - p.toInt) := by
  have hpos : (0 : Int) < step := by exact_mod_cast hstep
  have hcode := quantize_eq_saturate_fdiv (s := s) (p := p) hstep
  rw [← Int.le_ediv_iff_mul_le hpos, ← Int.fdiv_eq_ediv_of_nonneg _ hpos.le]
  unfold saturate at hcode
  omega

/-- Settles O5: the code is 0 below the threshold of 1, 15 from that of 15 on, and `c` between those of `c` and `c + 1`. -/
theorem quantizerHasTheFloorClosedForm : Obligations.QuantizerHasTheFloorClosedForm := by
  unfold Obligations.QuantizerHasTheFloorClosedForm
  intro s p step hstep
  have hlast := le_quantize_iff (s := s) (p := p) hstep (c := 15)
  have hfirst := le_quantize_iff (s := s) (p := p) hstep (c := 1)
  have hcode := (quantize s p step).isLt
  refine ⟨quantize_eq_saturate_fdiv hstep, by omega, by omega, fun c hc hc' => ?_⟩
  have hlow := le_quantize_iff (s := s) (p := p) hstep hc (by omega)
  have hhigh := le_quantize_iff (s := s) (p := p) hstep (c := c + 1) (by omega) (by omega)
  have hnext : ((c + 1 : Nat) : Int) - 8 = c - 7 := by omega
  rw [hnext] at hhigh
  omega

/-! ### The reconstruction term -/

/-- The reconstruction term does not decrease in the code (R87). -/
theorem delta_mono {c d : Code} (h : c.toNat ≤ d.toNat) (step : Nat) : delta c step ≤ delta d step := by
  have hproduct : c.toNat * step ≤ d.toNat * step := Nat.mul_le_mul_right step h
  unfold delta
  rw [Nat.shiftRight_eq_div_pow, Nat.shiftRight_eq_div_pow, Nat.shiftRight_eq_div_pow]
  omega

/-- At the largest code below the middle the term is negative (R87). -/
theorem delta_seven_neg {step : Nat} (h : 7 ≤ step) : delta 7#4 step < 0 := by
  have hvalue : delta 7#4 step = 7 * step / 4 - 15 * step / 8 := delta_eq 7#4 step
  rcases h.eq_or_lt with rfl | hlt
  · decide
  · omega

/-- At the smallest code above the middle the term is the ceiling of step / 8 (R87). -/
theorem delta_eight_eq (step : Nat) : delta 8#4 step = ((step + 7) / 8 : Nat) := by
  have hvalue : delta 8#4 step = 8 * step / 4 - 15 * step / 8 := delta_eq 8#4 step
  omega

theorem delta_eight_pos {step : Nat} (h : 7 ≤ step) : 0 < delta 8#4 step := by
  rw [delta_eight_eq]; omega

/-- The term never vanishes (R87): it is at most that of code 7 or at least that of code 8. -/
theorem delta_ne_zero {step : Nat} (h : 7 ≤ step) (c : Code) : delta c step ≠ 0 := by
  rcases Nat.lt_or_ge c.toNat 8 with hc | hc
  · have hle : delta c step ≤ delta 7#4 step := delta_mono (Nat.le_of_lt_succ hc) step
    exact (hle.trans_lt (delta_seven_neg h)).ne
  · have hle : delta 8#4 step ≤ delta c step := delta_mono (c := 8#4) hc step
    exact ((delta_eight_pos h).trans_le hle).ne'

/-- Settles O10: the general parts by the monotony in the code, the two listed rows by evaluation. -/
theorem reconstructionTermNeverVanishes : Obligations.ReconstructionTermNeverVanishes := by
  unfold Obligations.ReconstructionTermNeverVanishes
  refine ⟨fun step hlo _ => ?_, by decide, by decide, by decide⟩
  exact ⟨fun c d hcd => delta_mono hcd step, delta_seven_neg hlo, delta_eight_pos hlo, delta_ne_zero hlo,
    delta_eight_eq step⟩

/-! ### The ranges of the intermediate values -/

/-- A truncated quotient is at most `hi` where the numerator is below `(hi + 1) step`. -/
theorem tdiv_le {n step hi : Int} (hstep : 0 < step) (hhi : 0 ≤ hi) (h : n < (hi + 1) * step) : tdiv n step ≤ hi := by
  rcases le_or_gt n 0 with hn | hn
  · exact (tdiv_nonpos hn hstep).trans hhi
  · rw [tdiv, Int.tdiv_eq_ediv_of_nonneg hn.le]
    exact Int.lt_add_one_iff.mp (Int.ediv_lt_of_lt_mul hstep h)

/-- A truncated quotient is at least `-lo` where the numerator is above `-(lo + 1) step`. -/
theorem neg_le_tdiv {n step lo : Int} (hstep : 0 < step) (hlo : 0 ≤ lo) (h : -n < (lo + 1) * step) :
    -lo ≤ tdiv n step := by
  have hopposite : tdiv (-n) step ≤ lo := tdiv_le hstep hlo h
  rw [tdiv, Int.neg_tdiv] at hopposite
  unfold tdiv
  omega

/-- The reconstruction term lies between its values at the codes 0 and 15, which are widest at the largest step (R86). -/
theorem delta_bounds (c : Code) {step : Nat} (h : step ≤ 32767) : -61438 ≤ delta c step ∧ delta c step ≤ 61438 := by
  have hfirst : delta 0#4 step = 0 * step / 4 - 15 * step / 8 := delta_eq 0#4 step
  have hlast : delta 15#4 step = 15 * step / 4 - 15 * step / 8 := delta_eq 15#4 step
  have hlo : delta 0#4 step ≤ delta c step := delta_mono (Nat.zero_le _) step
  have hhi : delta c step ≤ delta 15#4 step := delta_mono (Nat.le_of_lt_succ c.isLt) step
  rcases h.eq_or_lt with rfl | hlt <;> omega

/-- A sample or a predictor is in the signed 16-bit range. -/
theorem toInt_sample_bounds (s : Sample) : -32768 ≤ s.toInt ∧ s.toInt ≤ 32767 :=
  ⟨BitVec.le_toInt s, Int.le_sub_one_of_lt (BitVec.toInt_lt)⟩

/-- Settles O9: the quotient by its numerator's range, the term by its values at codes 0 and 15, the rest linear. -/
theorem intermediateValuesFitTwentyBits : Obligations.IntermediateValuesFitTwentyBits := by
  unfold Obligations.IntermediateValuesFitTwentyBits
  intro s p c i step hlo hhi hi d n
  obtain ⟨hs, hs'⟩ := toInt_sample_bounds s
  obtain ⟨hp, hp'⟩ := toInt_sample_bounds p
  obtain ⟨hdelta, hdelta'⟩ := delta_bounds c hhi
  obtain ⟨hadj, hadj'⟩ := adj_bounds c
  have hproduct : c.toNat * step ≤ 15 * step := Nat.mul_le_mul_right step (Nat.le_of_lt_succ c.isLt)
  have hquotient : -37440 ≤ tdiv n step := neg_le_tdiv (by omega) (by omega) (by omega)
  have hquotient' : tdiv n step ≤ 37456 := tdiv_le (by omega) (by omega) (by omega)
  rw [Nat.shiftRight_eq_div_pow, Nat.shiftRight_eq_div_pow]
  refine ⟨?_, ?_, ?_, ?_, ⟨hquotient, hquotient'⟩, ?_, ?_, ?_, ?_, ?_, ?_, ?_⟩
  all_goals omega

/-! ### The saturated predictor, and the decoder step -/

/-- The code of a sample equal to the predictor is 8 (R82 with d = 0). -/
theorem quantize_self (p : Sample) {step : Nat} (h : 0 < step) : quantize p p step = 8#4 := by
  have hcode := quantize_eq_saturate_fdiv (s := p) (p := p) h
  rw [Int.sub_self, Int.mul_zero, Int.zero_fdiv] at hcode
  exact BitVec.eq_of_toNat_eq (Int.ofNat_inj.mp (hcode.trans rfl))

/-- A predictor at its largest value stays there under code 8 (R84). -/
theorem predict_max_eight {step : Nat} (h : 7 ≤ step) : predict 0x7FFF#16 8#4 step = 0x7FFF#16 := by
  have hpos := delta_eight_pos h
  have hvalue := predict_value 0x7FFF#16 8#4 step
  have hmax : (0x7FFF#16).toInt = 32767 := by decide
  apply BitVec.eq_of_toInt_eq
  rw [hvalue, hmax]
  unfold saturate
  omega

/-- Code 8 lowers the index by one, not below 0 (R85). -/
theorem adapt_eight {i : StepIndex} (h : i.toNat ≤ 88) : (adapt i 8#4).toNat = i.toNat - 1 := by
  have hvalue := adapt_value i 8#4
  have hadj : adj 8#4 = -1 := by decide
  rw [hadj] at hvalue
  unfold saturate at hvalue
  omega

/-- Settles O13: the code is 8, under which the predictor saturates and the index decays. -/
theorem saturatedPredictorHoldsWhileIndexDecays : Obligations.SaturatedPredictorHoldsWhileIndexDecays := by
  unfold Obligations.SaturatedPredictorHoldsWhileIndexDecays
  intro cfg st hcfg hst hp
  obtain ⟨hstep, -⟩ := stepSize_bounds hcfg hst
  have hcode : quantize 0x7FFF#16 st.predicted (stepSize cfg st.stepIndex) = 8#4 := by
    rw [hp]; exact quantize_self _ (by omega)
  refine ⟨st.advance cfg 8#4, ?_, ?_, adapt_eight hst⟩
  · rw [encStep_of_inRange hst, hcode]
  · rw [Channel.advance_predicted, hp]; exact predict_max_eight hstep

/-- Settles O45: both steps advance the channel by the code. -/
theorem decoderStepTracksEncoderStep : Obligations.DecoderStepTracksEncoderStep := by
  unfold Obligations.DecoderStepTracksEncoderStep
  intro cfg s st st' c h
  obtain ⟨hst, -, rfl⟩ := encStep_cases h
  exact decStep_of_inRange hst

end Sys2Proof.Machine
end

section
/-! PROOFS. The four commands at once: where a command completes, what state it leaves and which responses it makes. From
these follow the frames of the commands (R23, R68), their faults (R26, R152), their lanes (R91) and the resets' idempotence
(R142). -/

namespace Sys2Proof.Machine

/-- Every step index that the command reads is legal (R26). -/
def LegalAt (i : Instr) (s : State) : Prop :=
  match i with
  | .enc _ _ => InRange s.encL ∧ InRange s.encR
  | .dec _ => InRange s.decL ∧ InRange s.decR
  | .rstEnc => True
  | .rstDec => True

/-- The responses that the command makes where it completes (R68). -/
def responsesOf (i : Instr) (s : State) : List ResponseWord :=
  match i with
  | .enc _ r => [encResponseOf hardware r s.encR]
  | .dec b => [decResponseOf hardware b s.decL s.decR]
  | .rstEnc => []
  | .rstDec => []

/-- The state that the command leaves where it completes (R100, R120, R140, R141). -/
def resultOf (i : Instr) (s : State) : State :=
  match i with
  | .enc l r =>
    State.respond { s with encL := encNext hardware l s.encL, encR := encNext hardware r s.encR }
      (encResponseOf hardware r s.encR)
  | .dec b =>
    State.respond
      { s with decL := s.decL.advance hardware (leftCode b), decR := s.decR.advance hardware (rightCode b) }
      (decResponseOf hardware b s.decL s.decR)
  | .rstEnc => s.zeroEncoder
  | .rstDec => s.zeroDecoder

/-- A command whose indices are legal completes, in the state `resultOf`. -/
theorem exec_of_legalAt {i : Instr} {s : State} (h : LegalAt i s) : exec i s = .next (resultOf i s) := by
  cases i with
  | enc l r => exact encodePair_of_inRange h.1 h.2
  | dec b => exact decodeByte_of_inRange h.1 h.2
  | rstEnc => rfl
  | rstDec => rfl

/-- A command that reads an illegal index faults. -/
theorem exec_of_not_legalAt {i : Instr} {s : State} (h : ¬ LegalAt i s) : exec i s = .fault .badStepIndex := by
  cases i with
  | enc l r => exact encodePair_of_not_inRange (not_and_or.mp h)
  | dec b => exact decodeByte_of_not_inRange (not_and_or.mp h)
  | rstEnc => exact absurd trivial h
  | rstDec => exact absurd trivial h

/-- Exactly when a command completes, and in which state. -/
theorem exec_eq_next_iff {i : Instr} {s t : State} : exec i s = .next t ↔ LegalAt i s ∧ t = resultOf i s := by
  by_cases h : LegalAt i s
  · simp [exec_of_legalAt h, h, eq_comm]
  · simp [exec_of_not_legalAt h, h]

/-- Exactly when a command faults. -/
theorem exists_exec_eq_fault_iff {i : Instr} {s : State} : (∃ f, exec i s = .fault f) ↔ ¬ LegalAt i s := by
  by_cases h : LegalAt i s
  · simp [exec_of_legalAt h, h]
  · exact iff_of_true ⟨_, exec_of_not_legalAt h⟩ h

/-- No command is refused once decoded. -/
theorem exec_ne_refused (i : Instr) (s : State) (r : Refusal) : exec i s ≠ .refused r := by
  by_cases h : LegalAt i s
  · simp [exec_of_legalAt h]
  · simp [exec_of_not_legalAt h]

/-! ### What the state `resultOf` keeps -/

@[simp] theorem resultOf_input (i : Instr) (s : State) : (resultOf i s).input = s.input := by cases i <;> rfl
@[simp] theorem resultOf_delivered (i : Instr) (s : State) : (resultOf i s).delivered = s.delivered := by cases i <;> rfl
@[simp] theorem resultOf_draws (i : Instr) (s : State) : (resultOf i s).draws = s.draws := by cases i <;> rfl
@[simp] theorem resultOf_drawStream (i : Instr) (s : State) : (resultOf i s).drawStream = s.drawStream := by
  cases i <;> rfl

@[simp] theorem resultOf_undelivered (i : Instr) (s : State) :
    (resultOf i s).undelivered = s.undelivered ++ responsesOf i s := by
  cases i with
  | enc l r => rfl
  | dec b => rfl
  | rstEnc => exact (List.append_nil _).symm
  | rstDec => exact (List.append_nil _).symm

/-- A command makes one response or none (R68). -/
theorem length_responsesOf (i : Instr) (s : State) : (responsesOf i s).length = if hasResponse i then 1 else 0 := by
  cases i <;> rfl

/-- A command of the decode direction keeps the encode direction's registers (R24). -/
theorem resultOf_keeps_encoder {i : Instr} (h : i.encodeDirection = false) (s : State) :
    (resultOf i s).encL = s.encL ∧ (resultOf i s).encR = s.encR := by
  cases i with
  | enc l r => cases h
  | dec b => exact ⟨rfl, rfl⟩
  | rstEnc => cases h
  | rstDec => exact ⟨rfl, rfl⟩

/-- A command of the encode direction keeps the decode direction's registers (R24). -/
theorem resultOf_keeps_decoder {i : Instr} (h : i.encodeDirection = true) (s : State) :
    (resultOf i s).decL = s.decL ∧ (resultOf i s).decR = s.decR := by
  cases i with
  | enc l r => exact ⟨rfl, rfl⟩
  | dec b => cases h
  | rstEnc => exact ⟨rfl, rfl⟩
  | rstDec => cases h

/-- A command leaves a legal encode direction legal (R25). -/
theorem resultOf_inRange_encoder (i : Instr) {s : State} (h : InRange s.encL ∧ InRange s.encR) :
    InRange (resultOf i s).encL ∧ InRange (resultOf i s).encR := by
  cases i with
  | enc l r => exact ⟨encNext_inRange .., encNext_inRange ..⟩
  | dec b => exact h
  | rstEnc => exact ⟨inRange_zero, inRange_zero⟩
  | rstDec => exact h

/-- A command leaves a legal decode direction legal (R25). -/
theorem resultOf_inRange_decoder (i : Instr) {s : State} (h : InRange s.decL ∧ InRange s.decR) :
    InRange (resultOf i s).decL ∧ InRange (resultOf i s).decR := by
  cases i with
  | enc l r => exact h
  | dec b => exact ⟨advance_inRange .., advance_inRange ..⟩
  | rstEnc => exact h
  | rstDec => exact ⟨inRange_zero, inRange_zero⟩

/-- What a command could read legally, it can still read after another command. -/
theorem legalAt_resultOf {j : Instr} {s : State} (h : LegalAt j s) (i : Instr) : LegalAt j (resultOf i s) := by
  cases j with
  | enc l r => exact resultOf_inRange_encoder i h
  | dec b => exact resultOf_inRange_decoder i h
  | rstEnc => trivial
  | rstDec => trivial

/-- Under the range invariant every command completes (R25, R26). -/
theorem legalAt_of_rangeInvariant {s : State} (h : RangeInvariant s) (i : Instr) : LegalAt i s := by
  obtain ⟨hencL, hencR, hdecL, hdecR⟩ := h
  cases i with
  | enc l r => exact ⟨hencL, hencR⟩
  | dec b => exact ⟨hdecL, hdecR⟩
  | rstEnc => trivial
  | rstDec => trivial

/-- Every command keeps the range invariant (R25). -/
theorem rangeInvariant_resultOf {s : State} (h : RangeInvariant s) (i : Instr) : RangeInvariant (resultOf i s) := by
  obtain ⟨hencL, hencR, hdec⟩ := h
  obtain ⟨hencL', hencR'⟩ := resultOf_inRange_encoder i ⟨hencL, hencR⟩
  exact ⟨hencL', hencR', resultOf_inRange_decoder i hdec⟩

/-! ### The statements on single commands -/

/-- Settles O19: the frame of `resultOf`, field by field. -/
theorem eachCommandKeepsEverythingElse : Obligations.EachCommandKeepsEverythingElse := by
  unfold Obligations.EachCommandKeepsEverythingElse
  intro i s t h
  obtain ⟨-, rfl⟩ := exec_eq_next_iff.mp h
  exact ⟨resultOf_input i s, resultOf_delivered i s, resultOf_draws i s, resultOf_drawStream i s,
    fun hi => resultOf_keeps_encoder hi s, fun hi => resultOf_keeps_decoder hi s,
    responsesOf i s, resultOf_undelivered i s, length_responsesOf i s⟩

/-- Settles O23: a command faults exactly where it is not legal, and only ENCODE_PAIR and DECODE_BYTE read an index. -/
theorem commandsFaultExactlyOnABadIndexTheyRead : Obligations.CommandsFaultExactlyOnABadIndexTheyRead := by
  unfold Obligations.CommandsFaultExactlyOnABadIndexTheyRead
  refine fun i s => ⟨?_, exec_ne_refused i s⟩
  rw [exists_exec_eq_fault_iff]
  cases i <;> simp [LegalAt, imp_iff_not_or]

/-- Settles O21: each lane's next register is a function of its own register and its own sample or nibble. -/
theorem lanesAreIndependent : Obligations.LanesAreIndependent := by
  unfold Obligations.LanesAreIndependent
  refine ⟨fun l r r' s t t' x h h' => ?_, fun l l' r s t t' x h h' => ?_, fun b b' s t t' x hb h h' => ?_,
    fun b b' s t t' x hb h h' => ?_⟩
  all_goals
    obtain ⟨-, rfl⟩ := exec_eq_next_iff.mp h
    obtain ⟨-, rfl⟩ := exec_eq_next_iff.mp h'
  · rfl
  · exact ⟨rfl, rfl⟩
  · exact congrArg (s.decL.advance hardware) hb
  · exact congrArg (s.decR.advance hardware) hb

/-- Settles O18: a reset writes constants only, and ENCODE_PAIR reads the encode direction only. -/
theorem resetCommandsRebaseTheirDirection : Obligations.ResetCommandsRebaseTheirDirection := by
  unfold Obligations.ResetCommandsRebaseTheirDirection
  refine ⟨fun s t h => ?_, fun s t h => ?_, fun l r s t h => ?_⟩
  all_goals obtain ⟨-, rfl⟩ := exec_eq_next_iff.mp h
  · rfl
  · rfl
  · have hlegal : InRange Channel.zero ∧ InRange Channel.zero := ⟨inRange_zero, inRange_zero⟩
    exact ⟨_, _, encResponseOf hardware r .zero, exec_of_legalAt (i := .enc l r) hlegal,
      exec_of_legalAt (i := .enc l r) hlegal, rfl, rfl, rfl, rfl⟩

end Sys2Proof.Machine
end

section
/-! PROOFS. The step: command words (R48, R151), resets and their draws (R170, R172), the response channel (R48), the range
invariant (R25), and cores side by side (R161). -/

namespace Sys2Proof.Machine

/-! ### Command words -/

/-- A step on a word that decodes is `exec` of its command. -/
theorem step_of_decode_ok {s : State} {w : CommandWord} {i : Instr} {rest : List HostEvent}
    (hin : s.input = .command w :: rest) (hd : decode w = .ok i) : step s = exec i { s with input := rest } := by
  rw [step_of_cons hin]
  simp [runEvent, runCommand, hd]

/-- A step on a reserved word is refused. -/
theorem step_of_decode_error {s : State} {w : CommandWord} {e : DecodeError} {rest : List HostEvent}
    (hin : s.input = .command w :: rest) (hd : decode w = .error e) : step s = .refused (refusalOf e) := by
  rw [step_of_cons hin]
  simp [runEvent, runCommand, hd]

/-- Settles O30: the step decodes the word it takes off the channel. -/
theorem stepRunsTheDecodedCommand : Obligations.StepRunsTheDecodedCommand := by
  unfold Obligations.StepRunsTheDecodedCommand
  intro s w rest hin
  exact ⟨fun i => step_of_decode_ok hin, step_of_decode_error hin, step_of_decode_error hin⟩

/-- A table number that decodes is the word that is placed for it (log 7, log 8). -/
theorem decode_fetchWord {nbits w : Nat} {i : Instr} (h : decodeTableWord nbits w = some i) :
    decode (fetchWord nbits w) = .ok i := by
  unfold decodeTableWord tableWord at h
  by_cases hbits : w % 2 ^ nbits < 2 ^ 36
  · rw [if_pos hbits] at h
    unfold fetchWord
    cases hd : decode (BitVec.ofNat 36 (w % 2 ^ nbits)) with
    | ok j => simpa [hd] using h
    | error e => simp [hd] at h
  · rw [if_neg hbits] at h
    cases h

/-- Settles O31: the placed word is the next event and decodes to the command. -/
theorem placedTableWordRunsNext : Obligations.PlacedTableWordRunsNext := by
  unfold Obligations.PlacedTableWordRunsNext
  intro s nbits w i h
  exact step_of_decode_ok (State.issue_input s _) (decode_fetchWord h)

/-! ### Runs that stop at once -/

/-- A state with an event still to come is given a step. -/
theorem exists_stepsToEnd_eq_succ {s : State} {e : HostEvent} {rest : List HostEvent} (h : s.input = e :: rest) :
    ∃ m, s.stepsToEnd = m + 1 := by
  refine ⟨2 * rest.length + s.undelivered.length + 1, ?_⟩
  rw [State.stepsToEnd, h, List.length_cons]
  omega

/-- The run of R182 ends at a reserved word, with nothing written. -/
theorem endOfRun_of_refused {s : State} {w : CommandWord} {r : Refusal} {rest : List HostEvent}
    (hin : s.input = .command w :: rest) (h : step s = .refused r) : endOfRun s = ⟨s, some (.refused r)⟩ := by
  obtain ⟨m, hm⟩ := exists_stepsToEnd_eq_succ hin
  rw [endOfRun, hm]
  exact runToEnd_succ_of_refused (State.final_eq_false_of_command (w := w) (by simp [hin])) h

/-- The run of R182 ends at a fault, with nothing written. -/
theorem endOfRun_of_fault {s : State} {w : CommandWord} {f : Fault} {rest : List HostEvent}
    (hin : s.input = .command w :: rest) (h : step s = .fault f) : endOfRun s = ⟨s, some (.fault f)⟩ := by
  obtain ⟨m, hm⟩ := exists_stepsToEnd_eq_succ hin
  rw [endOfRun, hm]
  exact runToEnd_succ_of_fault (State.final_eq_false_of_command (w := w) (by simp [hin])) h

/-- Settles O32: the first step is refused, so both runs are the state with the refusal. -/
theorem reservedWordEndsTheRunWithItsMark : Obligations.ReservedWordEndsTheRunWithItsMark := by
  unfold Obligations.ReservedWordEndsTheRunWithItsMark
  intro n s w rest e hin hd
  have hstep := step_of_decode_error hin hd
  have hrun : run (n + 1) s = ⟨s, some (.refused (refusalOf e))⟩ := by simp [run, hstep]
  rw [endOfRun_of_refused hin hstep, hrun]
  exact ⟨rfl, rfl, rfl, rfl, rfl⟩

/-- Settles O33: the first step faults, so the run is the state with the fault. -/
theorem faultEndsTheRunUnfinished : Obligations.FaultEndsTheRunUnfinished := by
  unfold Obligations.FaultEndsTheRunUnfinished
  intro s w i rest f hin hd hfault
  rw [endOfRun_of_fault hin ((step_of_decode_ok hin hd).trans hfault)]
  exact ⟨rfl, rfl, rfl, rfl⟩

/-! ### Resets -/

/-- Settles O34: the hardware reset writes what the two reset commands write, and takes its event. -/
theorem hardwareResetZeroesEveryChannel : Obligations.HardwareResetZeroesEveryChannel := by
  unfold Obligations.HardwareResetZeroesEveryChannel
  intro s rest hin
  have hstep : step s = .next (State.hardwareReset { s with input := rest }) := by
    rcases hin with hin | hin
    · exact step_of_cons hin
    · exact step_of_cons hin
  exact ⟨_, _, _, hstep, exec_rstEnc s, exec_rstDec _, rfl, rfl, rfl, rfl, rfl, rfl, rfl, rfl, rfl, rfl⟩

/-- The responses that a reset does not lose are those whose own draw keeps them (R172; log 4). -/
theorem survivors_eq_filter (k n : Nat) (ws : List ResponseWord) :
    survivors k n ws = ((ws.zipIdx n).filter fun p => !Config.responseLost k p.2).map Prod.fst := by
  induction ws generalizing n with
  | nil => rfl
  | cons w ws ih =>
    rw [survivors, List.zipIdx_cons, List.filter_cons, ih]
    cases Config.responseLost k n <;> simp

/-- Settles O35: what the host gets is `survivors`, draw by draw. -/
theorem resetDrawsEachUndeliveredResponse : Obligations.ResetDrawsEachUndeliveredResponse := by
  unfold Obligations.ResetDrawsEachUndeliveredResponse
  intro s rest hin
  exact ⟨_, survivors s.drawStream s.draws s.undelivered, step_of_cons hin, rfl, survivors_sublist _ _ _,
    survivors_eq_filter _ _ _, rfl, rfl, rfl⟩

/-! ### The response channel -/

/-- Taking a response makes none, and changes what is delivered only at its end. -/
theorem State.deliverOldest_keeps_order (s : State) :
    ∃ ws : List ResponseWord, ws.length ≤ 1 ∧
      s.deliverOldest.delivered ++ s.deliverOldest.undelivered = s.delivered ++ s.undelivered ++ ws ∧
      s.delivered <+: s.deliverOldest.delivered := by
  refine ⟨[], Nat.zero_le 1, ?_, ?_⟩
  · rw [State.deliverOldest_order, List.append_nil]
  · rw [State.deliverOldest_delivered]
    exact ⟨_, rfl⟩

/-- Settles O36: a command puts its responses last, and taking one moves it from the one list to the other. -/
theorem responsesKeepCommandOrder : Obligations.ResponsesKeepCommandOrder := by
  unfold Obligations.ResponsesKeepCommandOrder
  intro s t hstep hreset hpower
  rcases step_cases hstep with
    ⟨-, rfl⟩ | ⟨rest, ⟨w, i, -, -, hexec⟩ | ⟨hin | hin, -⟩ | ⟨-, rfl⟩⟩
  · exact State.deliverOldest_keeps_order s
  · obtain ⟨-, rfl⟩ := exec_eq_next_iff.mp hexec
    refine ⟨responsesOf i { s with input := rest }, ?_, by simp, by simp⟩
    rw [length_responsesOf]
    split <;> simp
  · simp [hin] at hreset
  · simp [hin] at hpower
  · exact State.deliverOldest_keeps_order { s with input := rest }

/-! ### The range invariant -/

/-- Settles O38: evaluation at the reset state. -/
theorem resetMeetsTheRangeInvariant : Obligations.ResetMeetsTheRangeInvariant := by
  unfold Obligations.ResetMeetsTheRangeInvariant
  decide

/-- Taking a response keeps the range invariant, as it keeps the registers. -/
theorem rangeInvariant_deliverOldest {s : State} (h : RangeInvariant s) : RangeInvariant s.deliverOldest := by
  simpa [RangeInvariant] using h

/-- A hardware reset establishes the range invariant. -/
theorem rangeInvariant_hardwareReset (s : State) : RangeInvariant s.hardwareReset :=
  ⟨inRange_zero, inRange_zero, inRange_zero, inRange_zero⟩

/-- Every step keeps the range invariant (R25). -/
theorem rangeInvariant_of_step {s t : State} (h : RangeInvariant s) (hstep : step s = .next t) : RangeInvariant t := by
  rcases step_cases hstep with
    ⟨-, rfl⟩ | ⟨rest, ⟨w, i, -, -, hexec⟩ | ⟨-, rfl⟩ | ⟨-, rfl⟩⟩
  · exact rangeInvariant_deliverOldest h
  · obtain ⟨-, rfl⟩ := exec_eq_next_iff.mp hexec
    exact rangeInvariant_resultOf (s := { s with input := rest }) h i
  · exact rangeInvariant_hardwareReset _
  · exact rangeInvariant_deliverOldest (s := { s with input := rest }) h

/-- Settles O39: by the cases of a step. -/
theorem everyStepKeepsTheRangeInvariant : Obligations.EveryStepKeepsTheRangeInvariant := by
  unfold Obligations.EveryStepKeepsTheRangeInvariant
  exact fun s t => rangeInvariant_of_step

/-- Under the range invariant a step completes where the next event, if it is a command, is a legal word. -/
theorem exists_step_eq_next {s : State} (h : RangeInvariant s)
    (hwords : ∀ w rest, s.input = .command w :: rest → CommandWord.wellFormed w = true) : ∃ t, step s = .next t := by
  rcases hin : s.input with _ | ⟨e, rest⟩
  · exact ⟨_, step_of_nil hin⟩
  · cases e with
    | command w =>
      obtain ⟨i, hd⟩ := decode_of_wellFormed (hwords w rest hin)
      have hlegal : LegalAt i { s with input := rest } := legalAt_of_rangeInvariant h i
      exact ⟨_, (step_of_decode_ok hin hd).trans (exec_of_legalAt hlegal)⟩
    | hardwareReset => exact ⟨_, step_of_cons hin⟩
    | powerCycle => exact ⟨_, step_of_cons hin⟩
    | takeResponse => exact ⟨_, step_of_cons hin⟩

/-- Settles O40: a word outside the table's rows does not decode, and every other event completes. -/
theorem stepCompletesUnlessTheWordIsReserved : Obligations.StepCompletesUnlessTheWordIsReserved := by
  unfold Obligations.StepCompletesUnlessTheWordIsReserved
  intro s h
  by_cases hbad : ∃ w rest, s.input = .command w :: rest ∧ CommandWord.wellFormed w = false
  · obtain ⟨w, rest, hin, hw⟩ := hbad
    cases hd : decode w with
    | ok i =>
      have hlegal := (exists_decode_iff_wellFormed w).mp ⟨i, hd⟩
      rw [hw] at hlegal
      cases hlegal
    | error e => exact .inr ⟨w, rest, hin, hw, _, step_of_decode_error hin hd⟩
  · push Not at hbad
    exact .inl (exists_step_eq_next h fun w rest hin => by simpa using hbad w rest hin)

/-! ### Cores side by side -/

/-- A platform steps exactly where its core `k` does, and then only that core is changed (R161). -/
theorem stepCore_eq_next_iff {cores cores' : List State} {k : Nat} :
    stepCore cores k = some (.next cores') ↔
      ∃ s t, cores[k]? = some s ∧ step (s.onDrawStream k) = .next t ∧ cores' = cores.set k t := by
  unfold stepCore
  cases cores[k]? with
  | none => simp
  | some s => cases hstep : step (s.onDrawStream k) <;> simp [hstep, eq_comm]

/-- Settles O37: setting entry `k` of the list changes no other entry. -/
theorem coresAreIsolated : Obligations.CoresAreIsolated := by
  unfold Obligations.CoresAreIsolated
  intro cores cores' k h
  obtain ⟨s, t, hcore, hstep, rfl⟩ := stepCore_eq_next_iff.mp h
  refine ⟨fun j hj => List.getElem?_set_ne hj.symm, s, t, hcore, ?_, hstep⟩
  obtain ⟨hk, -⟩ := List.getElem?_eq_some_iff.mp hcore
  exact List.getElem?_set_self hk

end Sys2Proof.Machine
end

section
/-! PROOFS. The run of R182: where it ends, and that a run of legal words from a state in range comes to its end (R181, D25,
D28). -/

namespace Sys2Proof.Machine

/-- A final run has the registers and the responses of its state as its final state (R182). -/
theorem RunRecord.finalState_of_final {r : RunRecord} (h : r.final = true) :
    r.finalState = some ⟨r.state.encL, r.state.encR, r.state.decL, r.state.decR, r.state.delivered⟩ :=
  if_pos h

/-- A run of no steps has come to its end exactly where its state is final. -/
@[simp] theorem final_run_zero (s : State) : (run 0 s).final = s.final := rfl

/-- Settles O41: in a final state the run of R182 takes no step. -/
theorem runEndsWhenCommandsAreDoneAndResponsesDelivered :
    Obligations.RunEndsWhenCommandsAreDoneAndResponsesDelivered := by
  unfold Obligations.RunEndsWhenCommandsAreDoneAndResponsesDelivered
  refine fun s => ⟨State.final_iff s, fun hcommands hresponses n => ?_⟩
  have hfinal : s.final = true := (State.final_iff s).mpr ⟨hcommands, hresponses⟩
  rw [runToEnd_of_final n hfinal]
  exact ⟨rfl, RunRecord.finalState_of_final (r := ⟨s, none⟩) hfinal⟩

/-- A step takes the next event and adds none. -/
theorem input_of_step {s t : State} (h : step s = .next t) : t.input = s.input.tail := by
  rcases step_cases h with
    ⟨hin, rfl⟩ | ⟨rest, ⟨w, i, hin, -, hexec⟩ | ⟨hin | hin, rfl⟩ | ⟨hin, rfl⟩⟩
  · simp [hin]
  · obtain ⟨-, rfl⟩ := exec_eq_next_iff.mp hexec
    simp [hin]
  all_goals simp [hin]

/-- A step that takes an event adds at most one response to be delivered, and a step without one delivers. -/
theorem length_undelivered_of_step {s t : State} (h : step s = .next t) :
    t.undelivered.length ≤ s.undelivered.length + 1 ∧
      (s.input = [] → t.undelivered.length = s.undelivered.length - 1) := by
  rcases step_cases h with
    ⟨hin, rfl⟩ | ⟨rest, ⟨w, i, hin, -, hexec⟩ | ⟨hin | hin, rfl⟩ | ⟨hin, rfl⟩⟩
  · simp; omega
  · obtain ⟨-, rfl⟩ := exec_eq_next_iff.mp hexec
    have hone : (responsesOf i { s with input := rest }).length ≤ 1 := by
      rw [length_responsesOf]; split <;> simp
    simp [hin, hone]
  · simp [hin]
  · simp [hin]
  · simp [hin]; omega

/-- Every step before the end brings the end closer. -/
theorem stepsToEnd_lt_of_step {s t : State} (hf : s.final = false) (h : step s = .next t) :
    t.stepsToEnd < s.stepsToEnd := by
  obtain ⟨hgrow, hdeliver⟩ := length_undelivered_of_step h
  unfold State.stepsToEnd
  rw [input_of_step h]
  rcases hin : s.input with _ | ⟨e, rest⟩
  · have hleft : s.undelivered ≠ [] := by
      rintro hnone
      have hfinal : s.final = true := (State.final_iff s).mpr ⟨by simp [hin], hnone⟩
      rw [hf] at hfinal
      cases hfinal
    have hlength := List.length_pos_of_ne_nil hleft
    have hless := hdeliver hin
    simp only [List.tail_nil, List.length_nil]
    omega
  · simp only [List.tail_cons, List.length_cons]
    omega

/-- From a state in range whose words are all legal, stepping meets a final state for the first time, within the bound. -/
theorem exists_first_final {s : State} (hrange : RangeInvariant s)
    (hwords : ∀ w, HostEvent.command w ∈ s.input → CommandWord.wellFormed w = true) :
    ∃ n, n ≤ s.stepsToEnd ∧ (run n s).final = true ∧ ∀ k, k < n → (run k s).final = false := by
  induction hm : s.stepsToEnd using Nat.strong_induction_on generalizing s with
  | _ m ih =>
    subst hm
    by_cases hf : s.final = true
    · exact ⟨0, Nat.zero_le _, hf, fun k hk => absurd hk (Nat.not_lt_zero k)⟩
    · have hf' : s.final = false := Bool.eq_false_iff.mpr hf
      obtain ⟨t, hstep⟩ := exists_step_eq_next hrange fun w rest hin => hwords w (by simp [hin])
      have hwords' : ∀ w, HostEvent.command w ∈ t.input → CommandWord.wellFormed w = true := fun w hw =>
        hwords w (List.mem_of_mem_tail (input_of_step hstep ▸ hw))
      have hless := stepsToEnd_lt_of_step hf' hstep
      obtain ⟨n, hn, hend, hfirst⟩ := ih _ hless (rangeInvariant_of_step hrange hstep) hwords' rfl
      refine ⟨n + 1, by omega, by rwa [run_succ_of_next hstep], fun k hk => ?_⟩
      cases k with
      | zero => exact hf'
      | succ k => rw [run_succ_of_next hstep]; exact hfirst k (by omega)

/-- Settles O42: the run of R182 is given enough steps to meet the first final state. -/
theorem runsOfLegalWordsReachTheirEnd : Obligations.RunsOfLegalWordsReachTheirEnd := by
  unfold Obligations.RunsOfLegalWordsReachTheirEnd
  intro s hrange hwords
  obtain ⟨n, hn, hend, hfirst⟩ := exists_first_final hrange hwords
  have hrun : endOfRun s = run n s := runToEnd_eq_run_of_first hn s hend hfirst
  refine ⟨n, hn, hend, hfirst, hrun, ?_⟩
  rw [hrun]
  exact RunRecord.finalState_of_final hend

end Sys2Proof.Machine
end

section
/-! PROOFS. Noninterference (R30, R103): `SameButLeft` is kept by every pair of steps over events that differ in left samples
only, and such steps stop alike. -/

namespace Sys2Proof.Machine

/-- Two commands that differ at most in the left sample of an ENCODE_PAIR. -/
inductive SameButLeftInstr : Instr → Instr → Prop
  | enc (l l' r : Sample) : SameButLeftInstr (.enc l r) (.enc l' r)
  | dec (b : CodeByte) : SameButLeftInstr (.dec b) (.dec b)
  | rstEnc : SameButLeftInstr .rstEnc .rstEnc
  | rstDec : SameButLeftInstr .rstDec .rstDec

theorem SameButLeftInstr.refl (i : Instr) : SameButLeftInstr i i := by
  cases i with
  | enc l r => exact .enc l l r
  | dec b => exact .dec b
  | rstEnc => exact .rstEnc
  | rstDec => exact .rstDec

/-- Two steps that both complete, in states that differ in the hidden lane only, or that stop for the same reason. -/
inductive AlikeButLeft : Host.Outcome State Fault Refusal → Host.Outcome State Fault Refusal → Prop
  | next {s t : State} (h : SameButLeft s t) : AlikeButLeft (.next s) (.next t)
  | fault (f : Fault) : AlikeButLeft (.fault f) (.fault f)
  | refused (r : Refusal) : AlikeButLeft (.refused r) (.refused r)

/-- Two words that differ in left samples only are refused alike or spell commands that differ in left samples only. -/
theorem decode_of_sameButLeftWord {v w : CommandWord} (h : sameButLeftWord v w) :
    (∃ e, decode v = .error e ∧ decode w = .error e) ∨
      ∃ i j, decode v = .ok i ∧ decode w = .ok j ∧ SameButLeftInstr i j := by
  rcases h with rfl | ⟨hv, hw, hright⟩
  · cases hd : decode v with
    | ok i => exact .inr ⟨i, i, rfl, rfl, .refl i⟩
    | error e => exact .inl ⟨e, rfl, rfl⟩
  · refine .inr ⟨.enc (leftField v) (rightField v), .enc (leftField w) (rightField v), ?_, ?_, .enc ..⟩
    · simp [decode, hv]
    · simp [decode, hw, hright]

/-- Two such states are one state up to a legal ENC_L and the events. -/
theorem eq_of_sameButLeft {s t : State} (h : SameButLeft s t) :
    t = { s with encL := t.encL, input := t.input } := by
  obtain ⟨-, -, hencR, hdecL, hdecR, -, hundelivered, hdelivered, hdraws, hstream⟩ := h
  cases s
  cases t
  simp_all

/-- Commands that differ in left samples only read legal indices in the one state exactly when in the other: ENC_L is legal
in both. -/
theorem legalAt_iff_of_sameButLeft {s t : State} (h : SameButLeft s t) {i j : Instr} (hij : SameButLeftInstr i j) :
    LegalAt i s ↔ LegalAt j t := by
  obtain ⟨hs, ht, hencR, hdecL, hdecR, -⟩ := h
  cases hij with
  | enc l l' r => simp only [LegalAt, hs, ht, hencR]
  | dec b => simp only [LegalAt, hdecL, hdecR]
  | rstEnc => exact Iff.rfl
  | rstDec => exact Iff.rfl

/-- Commands that differ in left samples only leave states that differ in the hidden lane only. -/
theorem sameButLeft_resultOf {s t : State} (h : SameButLeft s t) {i j : Instr} (hij : SameButLeftInstr i j) :
    SameButLeft (resultOf i s) (resultOf j t) := by
  have hst := eq_of_sameButLeft h
  obtain ⟨hs, ht, -, -, -, hinput, -⟩ := h
  rw [hst]
  cases hij with
  | enc l l' r =>
    exact ⟨encNext_inRange .., encNext_inRange .., rfl, rfl, rfl, hinput, rfl, rfl, rfl, rfl⟩
  | dec b => exact ⟨hs, ht, rfl, rfl, rfl, hinput, rfl, rfl, rfl, rfl⟩
  | rstEnc => exact ⟨inRange_zero, inRange_zero, rfl, rfl, rfl, hinput, rfl, rfl, rfl, rfl⟩
  | rstDec => exact ⟨hs, ht, rfl, rfl, rfl, hinput, rfl, rfl, rfl, rfl⟩

theorem alikeButLeft_exec {s t : State} (h : SameButLeft s t) {i j : Instr} (hij : SameButLeftInstr i j) :
    AlikeButLeft (exec i s) (exec j t) := by
  have hiff := legalAt_iff_of_sameButLeft h hij
  by_cases hi : LegalAt i s
  · rw [exec_of_legalAt hi, exec_of_legalAt (hiff.mp hi)]
    exact .next (sameButLeft_resultOf h hij)
  · rw [exec_of_not_legalAt hi, exec_of_not_legalAt (mt hiff.mpr hi)]
    exact .fault _

theorem alikeButLeft_runCommand {s t : State} (h : SameButLeft s t) {v w : CommandWord} (hvw : sameButLeftWord v w) :
    AlikeButLeft (runCommand v s) (runCommand w t) := by
  unfold runCommand
  rcases decode_of_sameButLeftWord hvw with ⟨e, hv, hw⟩ | ⟨i, j, hv, hw, hij⟩
  · rw [hv, hw]
    exact .refused _
  · rw [hv, hw]
    exact alikeButLeft_exec h hij

theorem sameButLeft_deliverOldest {s t : State} (h : SameButLeft s t) :
    SameButLeft s.deliverOldest t.deliverOldest := by
  obtain ⟨hs, ht, hencR, hdecL, hdecR, hinput, hundelivered, hdelivered, hdraws, hstream⟩ := h
  simp [SameButLeft, hs, ht, hencR, hdecL, hdecR, hinput, hundelivered, hdelivered, hdraws, hstream]

/-- A reset loses the same responses in both states, since their draws are the same ones (log 4). -/
theorem sameButLeft_hardwareReset {s t : State} (h : SameButLeft s t) :
    SameButLeft s.hardwareReset t.hardwareReset := by
  obtain ⟨-, -, -, -, -, hinput, hundelivered, hdelivered, hdraws, hstream⟩ := h
  simp [SameButLeft, inRange_zero, hinput, hundelivered, hdelivered, hdraws, hstream]

theorem alikeButLeft_runEvent {s t : State} (h : SameButLeft s t) {e f : HostEvent} (hef : sameButLeftEvent e f) :
    AlikeButLeft (runEvent e s) (runEvent f t) := by
  cases e with
  | command v =>
    cases f with
    | command w => exact alikeButLeft_runCommand h hef
    | hardwareReset | powerCycle | takeResponse => exact hef.elim
  | hardwareReset =>
    cases f with
    | hardwareReset => exact .next (sameButLeft_hardwareReset h)
    | command w | powerCycle | takeResponse => exact hef.elim
  | powerCycle =>
    cases f with
    | powerCycle => exact .next (sameButLeft_hardwareReset h)
    | command w | hardwareReset | takeResponse => exact hef.elim
  | takeResponse =>
    cases f with
    | takeResponse => exact .next (sameButLeft_deliverOldest h)
    | command w | hardwareReset | powerCycle => exact hef.elim

/-- The step case of the noninterference (R30, R103). -/
theorem alikeButLeft_step {s t : State} (h : SameButLeft s t) : AlikeButLeft (step s) (step t) := by
  have hrelated := h
  obtain ⟨hs, ht, hencR, hdecL, hdecR, hinput, hrest⟩ := hrelated
  rcases hsin : s.input with _ | ⟨e, srest⟩
  · have htin : t.input = [] := by rwa [hsin, List.forall₂_nil_left_iff] at hinput
    rw [step_of_nil hsin, step_of_nil htin]
    exact .next (sameButLeft_deliverOldest h)
  · rw [hsin, List.forall₂_cons_left_iff] at hinput
    obtain ⟨f, trest, hef, hinput, htin⟩ := hinput
    rw [step_of_cons hsin, step_of_cons htin]
    exact alikeButLeft_runEvent (s := { s with input := srest }) (t := { t with input := trest })
      ⟨hs, ht, hencR, hdecL, hdecR, hinput, hrest⟩ hef

/-- Settles O43: by induction on the number of steps, with `alikeButLeft_step` as the step case. -/
theorem leftSamplesNeverReachTheHost : Obligations.LeftSamplesNeverReachTheHost := by
  unfold Obligations.LeftSamplesNeverReachTheHost
  intro n
  induction n with
  | zero => exact fun s t h => ⟨rfl, h⟩
  | succ n ih =>
    intro s t h
    have hstep := alikeButLeft_step h
    unfold run
    generalize step s = o at hstep
    generalize step t = p at hstep
    cases hstep with
    | next h' => exact ih _ _ h'
    | fault f => exact ⟨rfl, h⟩
    | refused r => exact ⟨rfl, h⟩

end Sys2Proof.Machine
end

section
/-! PROOFS. Lists of commands: where each command reads legal indices, what `execAll` answers, and how the two directions'
commands interleave (R50). -/

namespace Sys2Proof.Machine

/-- The state that a list of commands leaves, one after the other, where each completes. -/
def resultOfAll (is : List Instr) (s : State) : State :=
  match is with
  | [] => s
  | i :: rest => resultOfAll rest (resultOf i s)

/-- Each command of a list with the responses it makes, where each completes. -/
def logOfAll (is : List Instr) (s : State) : List (Instr × List ResponseWord) :=
  match is with
  | [] => []
  | i :: rest => (i, responsesOf i s) :: logOfAll rest (resultOf i s)

/-- The responses that a list of commands makes, in order, where each completes. -/
def responsesOfAll (is : List Instr) (s : State) : List ResponseWord := (logOfAll is s).flatMap Prod.snd

@[simp] theorem resultOfAll_nil (s : State) : resultOfAll [] s = s := rfl
@[simp] theorem resultOfAll_cons (i : Instr) (is : List Instr) (s : State) :
    resultOfAll (i :: is) s = resultOfAll is (resultOf i s) := rfl
@[simp] theorem logOfAll_nil (s : State) : logOfAll [] s = [] := rfl
@[simp] theorem logOfAll_cons (i : Instr) (is : List Instr) (s : State) :
    logOfAll (i :: is) s = (i, responsesOf i s) :: logOfAll is (resultOf i s) := rfl
@[simp] theorem responsesOfAll_nil (s : State) : responsesOfAll [] s = [] := rfl
@[simp] theorem responsesOfAll_cons (i : Instr) (is : List Instr) (s : State) :
    responsesOfAll (i :: is) s = responsesOf i s ++ responsesOfAll is (resultOf i s) := rfl

/-- A list of commands that read legal indices completes: no command makes an index illegal that a later one reads. -/
theorem execAll_of_legalAt {is : List Instr} {s : State} (h : ∀ i ∈ is, LegalAt i s) :
    execAll is s = some (logOfAll is s, resultOfAll is s) := by
  induction is generalizing s with
  | nil => rfl
  | cons i is ih =>
    obtain ⟨hi, his⟩ := List.forall_mem_cons.mp h
    have hrest := ih fun j hj => legalAt_resultOf (his j hj) i
    simp [execAll, exec_of_legalAt hi, hrest]

@[simp] theorem resultOfAll_input (is : List Instr) (s : State) : (resultOfAll is s).input = s.input := by
  induction is generalizing s with
  | nil => rfl
  | cons i is ih => simp [ih]

@[simp] theorem resultOfAll_delivered (is : List Instr) (s : State) : (resultOfAll is s).delivered = s.delivered := by
  induction is generalizing s with
  | nil => rfl
  | cons i is ih => simp [ih]

@[simp] theorem resultOfAll_undelivered (is : List Instr) (s : State) :
    (resultOfAll is s).undelivered = s.undelivered ++ responsesOfAll is s := by
  induction is generalizing s with
  | nil => simp
  | cons i is ih => simp [ih]

/-- Commands of the decode direction keep the encode direction's registers (R24). -/
theorem resultOfAll_keeps_encoder {is : List Instr} (h : ∀ i ∈ is, i.encodeDirection = false) (s : State) :
    (resultOfAll is s).encL = s.encL ∧ (resultOfAll is s).encR = s.encR := by
  induction is generalizing s with
  | nil => exact ⟨rfl, rfl⟩
  | cons i is ih =>
    obtain ⟨hi, his⟩ := List.forall_mem_cons.mp h
    obtain ⟨hl, hr⟩ := resultOf_keeps_encoder hi s
    rw [resultOfAll_cons, ← hl, ← hr]
    exact ih his _

/-- Commands of the encode direction keep the decode direction's registers (R24). -/
theorem resultOfAll_keeps_decoder {is : List Instr} (h : ∀ i ∈ is, i.encodeDirection = true) (s : State) :
    (resultOfAll is s).decL = s.decL ∧ (resultOfAll is s).decR = s.decR := by
  induction is generalizing s with
  | nil => exact ⟨rfl, rfl⟩
  | cons i is ih =>
    obtain ⟨hi, his⟩ := List.forall_mem_cons.mp h
    obtain ⟨hl, hr⟩ := resultOf_keeps_decoder hi s
    rw [resultOfAll_cons, ← hl, ← hr]
    exact ih his _

/-- Each command that responds makes exactly one response. -/
theorem length_responsesOfAll {is : List Instr} (h : ∀ i ∈ is, hasResponse i = true) (s : State) :
    (responsesOfAll is s).length = is.length := by
  induction is generalizing s with
  | nil => rfl
  | cons i is ih =>
    obtain ⟨hi, his⟩ := List.forall_mem_cons.mp h
    simp [length_responsesOf, hi, ih his, Nat.add_comm]

/-! ### Interleaving -/

/-- The two states hold the same registers of one direction: the encode direction's (`true`) or the decode direction's. -/
def AgreeOn (direction : Bool) (s t : State) : Prop :=
  match direction with
  | true => s.encL = t.encL ∧ s.encR = t.encR
  | false => s.decL = t.decL ∧ s.decR = t.decR

theorem AgreeOn.refl (direction : Bool) (s : State) : AgreeOn direction s s := by
  cases direction with
  | true => exact ⟨rfl, rfl⟩
  | false => exact ⟨rfl, rfl⟩

/-- A command does the same, and answers the same, in two states that agree on its direction (R24). -/
theorem agreeOn_resultOf {i : Instr} {s t : State} (h : AgreeOn i.encodeDirection s t) :
    AgreeOn i.encodeDirection (resultOf i s) (resultOf i t) ∧ responsesOf i s = responsesOf i t := by
  cases i with
  | enc l r =>
    obtain ⟨hl, hr⟩ : s.encL = t.encL ∧ s.encR = t.encR := h
    exact ⟨⟨congrArg (encNext hardware l) hl, congrArg (encNext hardware r) hr⟩, by simp only [responsesOf, hr]⟩
  | dec b =>
    obtain ⟨hl, hr⟩ : s.decL = t.decL ∧ s.decR = t.decR := h
    exact ⟨⟨congrArg (·.advance hardware (leftCode b)) hl, congrArg (·.advance hardware (rightCode b)) hr⟩,
      by simp only [responsesOf, hl, hr]⟩
  | rstEnc => exact ⟨⟨rfl, rfl⟩, rfl⟩
  | rstDec => exact ⟨⟨rfl, rfl⟩, rfl⟩

/-- A command of the other direction keeps the agreement (R24). -/
theorem agreeOn_resultOf_of_ne {i : Instr} {direction : Bool} {s t : State} (hi : i.encodeDirection ≠ direction)
    (h : AgreeOn direction s t) : AgreeOn direction (resultOf i s) t := by
  cases direction with
  | true =>
    obtain ⟨hl, hr⟩ := resultOf_keeps_encoder (Bool.eq_false_iff.mpr hi) s
    exact ⟨hl.trans h.1, hr.trans h.2⟩
  | false =>
    obtain ⟨hl, hr⟩ := resultOf_keeps_decoder (Bool.eq_true_of_not_eq_false hi) s
    exact ⟨hl.trans h.1, hr.trans h.2⟩

/-- The commands of one direction, taken out of a list, make the responses and the registers that they make in it (R50). -/
theorem filter_direction {direction : Bool} (is : List Instr) {s t : State} (h : AgreeOn direction s t) :
    logOfAll (is.filter (·.encodeDirection == direction)) t =
        (logOfAll is s).filter (fun p => p.1.encodeDirection == direction) ∧
      AgreeOn direction (resultOfAll is s) (resultOfAll (is.filter (·.encodeDirection == direction)) t) := by
  induction is generalizing s t with
  | nil => exact ⟨rfl, h⟩
  | cons i is ih =>
    by_cases hi : i.encodeDirection = direction
    · subst hi
      obtain ⟨hregs, hresponses⟩ := agreeOn_resultOf h
      obtain ⟨hlog, hend⟩ := ih hregs
      simpa [hresponses, hlog] using hend
    · simpa [hi] using ih (agreeOn_resultOf_of_ne hi h)

/-- Settles O44: `filter_direction` for each of the two directions, from the state itself. -/
theorem directionsMayInterleaveAnyWay : Obligations.DirectionsMayInterleaveAnyWay := by
  unfold Obligations.DirectionsMayInterleaveAnyWay
  intro is s hrange
  have hlegal (js : List Instr) : execAll js s = some (logOfAll js s, resultOfAll js s) :=
    execAll_of_legalAt fun i _ => legalAt_of_rangeInvariant hrange i
  obtain ⟨helog, hencL, hencR⟩ := filter_direction is (.refl true s)
  obtain ⟨hdlog, hdecL, hdecR⟩ := filter_direction is (.refl false s)
  simp only [beq_true, beq_false] at *
  exact ⟨_, _, _, _, _, _, hlegal _, hlegal _, hlegal _, helog, hdlog,
    hencL.symm, hencR.symm, hdecL.symm, hdecR.symm⟩

end Sys2Proof.Machine
end

section
/-! PROOFS. The host procedures (R72, R104, R124; log 12): a procedure of commands that respond is its list of commands with
every response taken. -/

namespace Sys2Proof.Machine

/-- The state after the host has taken every response there is. -/
def State.taken (s : State) : State := { s with undelivered := [], delivered := s.delivered ++ s.undelivered }

@[simp] theorem State.taken_encL (s : State) : s.taken.encL = s.encL := rfl
@[simp] theorem State.taken_encR (s : State) : s.taken.encR = s.encR := rfl
@[simp] theorem State.taken_decL (s : State) : s.taken.decL = s.decL := rfl
@[simp] theorem State.taken_decR (s : State) : s.taken.decR = s.decR := rfl
@[simp] theorem State.taken_input (s : State) : s.taken.input = s.input := rfl
@[simp] theorem State.taken_undelivered (s : State) : s.taken.undelivered = [] := rfl
@[simp] theorem State.taken_delivered (s : State) : s.taken.delivered = s.delivered ++ s.undelivered := rfl

/-- No command reads the response channel: responses taken before the command or after it are the same responses taken. -/
theorem taken_resultOf_taken (i : Instr) (s : State) : (resultOf i s.taken).taken = (resultOf i s).taken := by
  cases i <;> simp [resultOf, State.taken, State.respond, State.zeroEncoder, State.zeroDecoder]

/-- Which indices a command reads has nothing to do with the host's events and responses. -/
theorem legalAt_taken {i : Instr} {s : State} : LegalAt i s.taken ↔ LegalAt i s := by cases i <;> exact Iff.rfl

theorem legalAt_scheduleFirst {i : Instr} {s : State} {events : List HostEvent} :
    LegalAt i (s.scheduleFirst events) ↔ LegalAt i s := by cases i <;> exact Iff.rfl

theorem responsesOf_scheduleFirst (i : Instr) (s : State) (events : List HostEvent) :
    responsesOf i (s.scheduleFirst events) = responsesOf i s := by cases i <;> rfl

/-- The transaction of a command that responds, where nothing is undelivered before it: the command, and its response taken. -/
theorem runCommands_cons_of_legalAt {i : Instr} {is : List Instr} {s : State} (hi : hasResponse i = true)
    (h : LegalAt i s) (hnone : s.undelivered = []) :
    runCommands (i :: is) s = runCommands is (resultOf i s).taken := by
  obtain ⟨w, hw⟩ : ∃ w, responsesOf i s = [w] := by
    rw [← List.length_eq_one_iff, length_responsesOf, if_pos hi]
  have hlegal := (legalAt_scheduleFirst (events := .takeResponse :: transactions is)).mpr h
  rw [runCommands_cons_of_responds hi (decode_encode i) (exec_of_legalAt hlegal) (by simp)
    (by simp [hnone, responsesOf_scheduleFirst, hw] : _ = [w])]
  congr 1
  cases i with
  | enc l r => simp_all [responsesOf, State.taken, State.scheduleFirst, State.respond, resultOf]
  | dec b => simp_all [responsesOf, State.taken, State.scheduleFirst, State.respond, resultOf]
  | rstEnc => cases hi
  | rstDec => cases hi

/-- A list of commands that respond, run as transactions, leaves what the commands leave, with every response taken. -/
theorem runCommands_taken {is : List Instr} {s : State} (hresponds : ∀ i ∈ is, hasResponse i = true)
    (h : ∀ i ∈ is, LegalAt i s) : runCommands is s.taken = ⟨(resultOfAll is s).taken, none⟩ := by
  induction is generalizing s with
  | nil => exact runCommands_nil _
  | cons i is ih =>
    obtain ⟨hi, his⟩ := List.forall_mem_cons.mp hresponds
    obtain ⟨hlegal, hlegals⟩ := List.forall_mem_cons.mp h
    rw [runCommands_cons_of_legalAt hi (legalAt_taken.mpr hlegal) rfl, taken_resultOf_taken]
    exact ih his fun j hj => legalAt_resultOf (hlegals j hj) i

/-- A procedure that issues a command leaves what its commands leave, with every response taken (R104, R124; log 12). -/
theorem runProcedure_of_ne_nil {is : List Instr} {s : State} (hne : is ≠ [])
    (hresponds : ∀ i ∈ is, hasResponse i = true) (h : ∀ i ∈ is, LegalAt i s) :
    runProcedure is s = ⟨(resultOfAll is s).taken, none⟩ := by
  obtain ⟨i, rest, rfl⟩ := List.exists_cons_of_ne_nil hne
  exact (runProcedure_cons i rest s).trans (runCommands_taken hresponds h)

/-- What a procedure of commands that respond and read legal indices does from any state. -/
structure ProcedureDone (is : List Instr) (s : State) (r : RunRecord) : Prop where
  stop : r.stop = none
  encL : r.state.encL = (resultOfAll is s).encL
  encR : r.state.encR = (resultOfAll is s).encR
  decL : r.state.decL = (resultOfAll is s).decL
  decR : r.state.decR = (resultOfAll is s).decR
  input : r.state.input = s.input
  undelivered : r.state.undelivered = if is = [] then s.undelivered else []
  order : r.state.delivered ++ r.state.undelivered = s.delivered ++ s.undelivered ++ responsesOfAll is s
  own : r.responsesSince s = responsesOfAll is s

theorem procedureDone {is : List Instr} {s : State} (hresponds : ∀ i ∈ is, hasResponse i = true)
    (h : ∀ i ∈ is, LegalAt i s) : ProcedureDone is s (runProcedure is s) := by
  by_cases hne : is = []
  · subst hne
    rw [runProcedure_nil]
    exact ⟨rfl, rfl, rfl, rfl, rfl, rfl, rfl, by simp, by simp [RunRecord.responsesSince]⟩
  · rw [runProcedure_of_ne_nil hne hresponds h]
    exact ⟨rfl, rfl, rfl, rfl, rfl, by simp, by simp [hne], by simp,
      by simp [RunRecord.responsesSince, ← List.append_assoc, ← List.length_append]⟩

end Sys2Proof.Machine
end

section
/-! PROOFS. ENCODE and DECODE as streams: their results (D23), the length laws (R105, R125), equal channels (R126) and the
alignment of decoder and encoder (R127, R179). -/

namespace Sys2Proof.Machine

/-! ### The commands that the procedures issue -/

/-- ENCODE issues ENCODE_PAIRs only. -/
theorem exists_eq_enc_of_mem {i : Instr} : ∀ {pcm : List Sample}, i ∈ encodeCommands pcm → ∃ l r, i = .enc l r
  | [], h => by cases h
  | [_], h => by cases h
  | l :: r :: rest, h => by
    rcases List.mem_cons.mp h with rfl | h
    · exact ⟨l, r, rfl⟩
    · exact exists_eq_enc_of_mem h

/-- ENCODE issues one command for each whole pair (R104). -/
theorem length_encodeCommands : ∀ pcm : List Sample, (encodeCommands pcm).length = pcm.length / 2
  | [] => rfl
  | [x] => by simp [encodeCommands]
  | l :: r :: rest => by
    simp only [encodeCommands, List.length_cons, length_encodeCommands rest]
    omega

/-- Command `i` of ENCODE takes samples `2 i` and `2 i + 1` (R104). -/
theorem getElem?_encodeCommands : ∀ (pcm : List Sample) (i : Nat), i < pcm.length / 2 →
    ∃ l r, pcm[2 * i]? = some l ∧ pcm[2 * i + 1]? = some r ∧ (encodeCommands pcm)[i]? = some (.enc l r)
  | [], i, h => absurd h (Nat.not_lt_zero i)
  | [x], i, h => by simp at h
  | l :: r :: rest, 0, _ => ⟨l, r, rfl, rfl, rfl⟩
  | l :: r :: rest, i + 1, h => by
    rw [List.length_cons, List.length_cons] at h
    exact getElem?_encodeCommands rest i (by omega)

theorem encodeDirection_of_mem_encodeCommands {pcm : List Sample} :
    ∀ i ∈ encodeCommands pcm, i.encodeDirection = true := fun i hi => by
  obtain ⟨l, r, rfl⟩ := exists_eq_enc_of_mem hi
  rfl

theorem hasResponse_of_mem_encodeCommands {pcm : List Sample} :
    ∀ i ∈ encodeCommands pcm, hasResponse i = true := fun i hi => by
  obtain ⟨l, r, rfl⟩ := exists_eq_enc_of_mem hi
  rfl

theorem legalAt_of_mem_encodeCommands {pcm : List Sample} {s : State} (hl : InRange s.encL) (hr : InRange s.encR) :
    ∀ i ∈ encodeCommands pcm, LegalAt i s := fun i hi => by
  obtain ⟨l, r, rfl⟩ := exists_eq_enc_of_mem hi
  exact ⟨hl, hr⟩

theorem encodeDirection_of_mem_decodeCommands {bytes : List CodeByte} :
    ∀ i ∈ decodeCommands bytes, i.encodeDirection = false :=
  List.forall_mem_map.mpr fun _ _ => rfl

theorem hasResponse_of_mem_decodeCommands {bytes : List CodeByte} :
    ∀ i ∈ decodeCommands bytes, hasResponse i = true :=
  List.forall_mem_map.mpr fun _ _ => rfl

theorem legalAt_of_mem_decodeCommands {bytes : List CodeByte} {s : State} (hl : InRange s.decL) (hr : InRange s.decR) :
    ∀ i ∈ decodeCommands bytes, LegalAt i s :=
  List.forall_mem_map.mpr fun _ _ => ⟨hl, hr⟩

/-- What the run of ENCODE does from a state with legal encode indices. -/
theorem encodeProcedure_done (pcm : List Sample) {s : State} (hl : InRange s.encL) (hr : InRange s.encR) :
    ProcedureDone (encodeCommands pcm) s (encodeProcedure pcm s).1 :=
  procedureDone hasResponse_of_mem_encodeCommands (legalAt_of_mem_encodeCommands hl hr)

/-- What the run of DECODE does from a state with legal decode indices. -/
theorem decodeProcedure_done (bytes : List CodeByte) {s : State} (hl : InRange s.decL) (hr : InRange s.decR) :
    ProcedureDone (decodeCommands bytes) s (decodeProcedure bytes s).1 :=
  procedureDone hasResponse_of_mem_decodeCommands (legalAt_of_mem_decodeCommands hl hr)

/-- ENCODE returns the bytes of its own commands' responses (R104, D23). -/
theorem encodeProcedure_output (pcm : List Sample) {s : State} (hl : InRange s.encL) (hr : InRange s.encR) :
    (encodeProcedure pcm s).2 = encodeOutput (responsesOfAll (encodeCommands pcm) s) :=
  congrArg encodeOutput (encodeProcedure_done pcm hl hr).own

/-- DECODE returns the samples of its own commands' responses (R124, D23). -/
theorem decodeProcedure_output (bytes : List CodeByte) {s : State} (hl : InRange s.decL) (hr : InRange s.decR) :
    (decodeProcedure bytes s).2 = decodeOutput (responsesOfAll (decodeCommands bytes) s) :=
  congrArg decodeOutput (decodeProcedure_done bytes hl hr).own

/-- Settles O47: the procedure is its commands with every response taken, and these keep the decode direction. -/
theorem encodeProcedureReturnsItsCommandsResponses : Obligations.EncodeProcedureReturnsItsCommandsResponses := by
  unfold Obligations.EncodeProcedureReturnsItsCommandsResponses
  intro pcm s hl hr
  have hdone := encodeProcedure_done pcm hl hr
  obtain ⟨hdecL, hdecR⟩ := resultOfAll_keeps_decoder (encodeDirection_of_mem_encodeCommands (pcm := pcm)) s
  exact ⟨getElem?_encodeCommands pcm, length_encodeCommands pcm, _, _,
    execAll_of_legalAt (legalAt_of_mem_encodeCommands hl hr), encodeProcedure_output pcm hl hr, hdone.stop,
    hdone.encL, hdone.encR, hdone.decL.trans hdecL, hdone.decR.trans hdecR, hdone.order⟩

/-- Settles O48: the procedure is its commands with every response taken, and these keep the encode direction. -/
theorem decodeProcedureReturnsItsCommandsResponses : Obligations.DecodeProcedureReturnsItsCommandsResponses := by
  unfold Obligations.DecodeProcedureReturnsItsCommandsResponses
  intro bytes s hl hr
  have hdone := decodeProcedure_done bytes hl hr
  obtain ⟨hencL, hencR⟩ := resultOfAll_keeps_encoder (encodeDirection_of_mem_decodeCommands (bytes := bytes)) s
  exact ⟨rfl, _, _, execAll_of_legalAt (legalAt_of_mem_decodeCommands hl hr), decodeProcedure_output bytes hl hr,
    hdone.stop, hdone.decL, hdone.decR, hdone.encL.trans hencL, hdone.encR.trans hencR, hdone.order⟩

/-! ### Lengths -/

/-- DECODE returns two samples for each response. -/
theorem length_decodeOutput (ws : List ResponseWord) : (decodeOutput ws).length = 2 * ws.length := by
  simp [decodeOutput, List.length_flatMap, Nat.mul_comm]

theorem length_encodeProcedure_output (pcm : List Sample) {s : State} (hl : InRange s.encL) (hr : InRange s.encR) :
    (encodeProcedure pcm s).2.length = pcm.length / 2 := by
  rw [encodeProcedure_output pcm hl hr, encodeOutput, List.length_map,
    length_responsesOfAll hasResponse_of_mem_encodeCommands, length_encodeCommands]

theorem length_decodeProcedure_output (bytes : List CodeByte) {s : State} (hl : InRange s.decL) (hr : InRange s.decR) :
    (decodeProcedure bytes s).2.length = 2 * bytes.length := by
  rw [decodeProcedure_output bytes hl hr, length_decodeOutput,
    length_responsesOfAll hasResponse_of_mem_decodeCommands, decodeCommands, List.length_map]

/-- ENCODE issues nothing exactly where there is no whole pair. -/
theorem encodeCommands_eq_nil_iff {pcm : List Sample} : encodeCommands pcm = [] ↔ pcm.length < 2 := by
  rw [← List.length_eq_zero_iff, length_encodeCommands]
  omega

/-- Settles O49: one response for each command, one byte or two samples for each response. -/
theorem streamProceduresObeyTheLengthLaws : Obligations.StreamProceduresObeyTheLengthLaws := by
  unfold Obligations.StreamProceduresObeyTheLengthLaws
  refine ⟨fun pcm s hl hr => ?_, fun bytes s hl hr => ?_⟩
  · have hdone := encodeProcedure_done pcm hl hr
    refine ⟨length_encodeProcedure_output pcm hl hr, hdone.stop, hdone.input, ?_⟩
    simp only [hdone.undelivered, encodeCommands_eq_nil_iff]
  · have hdone := decodeProcedure_done bytes hl hr
    refine ⟨length_decodeProcedure_output bytes hl hr, hdone.stop, hdone.input, ?_⟩
    simp only [hdone.undelivered, decodeCommands, List.map_eq_nil_iff, List.length_eq_zero_iff]

/-! ### Encoder and decoder together -/

/-- Both nibbles of a packed byte are the code that was packed (R101). -/
theorem codes_packByte (c : Code) : leftCode (packByte c) = c ∧ rightCode (packByte c) = c := by
  revert c; decide

/-- The host reads the byte back from a response of ENCODE_PAIR (R68, R104). -/
theorem responseByte_encodeResponse (b : CodeByte) : responseByte (encodeResponse b) = b := by
  apply BitVec.eq_of_toNat_eq
  simp [responseByte, encodeResponse, b.isLt]

/-- Both codes of the byte of an ENCODE_PAIR are the code of its right sample (R101). -/
theorem codes_encResponseOf (r : Sample) (st : Channel) :
    let code := quantize r st.predicted (stepSize hardware st.stepIndex)
    leftCode (responseByte (encResponseOf hardware r st)) = code ∧
      rightCode (responseByte (encResponseOf hardware r st)) = code := by
  rw [encResponseOf, responseByte_encodeResponse]
  exact codes_packByte _

/-- A left decoder lane in the encoder's right state follows it on the byte emitted (R90, R101). -/
theorem advance_leftCode_encResponseOf (r : Sample) {lane st : Channel} (h : lane = st) :
    lane.advance hardware (leftCode (responseByte (encResponseOf hardware r st))) = encNext hardware r st := by
  obtain ⟨hleft, -⟩ := codes_encResponseOf r st
  rw [h, hleft]
  rfl

/-- A right decoder lane in the encoder's right state follows it on the byte emitted (R90, R127). -/
theorem advance_rightCode_encResponseOf (r : Sample) {lane st : Channel} (h : lane = st) :
    lane.advance hardware (rightCode (responseByte (encResponseOf hardware r st))) = encNext hardware r st := by
  obtain ⟨-, hright⟩ := codes_encResponseOf r st
  rw [h, hright]
  rfl

theorem responseLeft_decResponseOf (cfg : Config) (b : CodeByte) (l r : Channel) :
    responseLeft (decResponseOf cfg b l r) = (l.advance cfg (leftCode b)).predicted :=
  responseLeft_decodeResponse ..

theorem responseRight_decResponseOf (cfg : Config) (b : CodeByte) (l r : Channel) :
    responseRight (decResponseOf cfg b l r) = (r.advance cfg (rightCode b)).predicted :=
  responseRight_decodeResponse ..

/-- Settles O46: each decoder lane that holds the encoder's right state follows it. -/
theorem decoderReproducesTheRightChannel : Obligations.DecoderReproducesTheRightChannel := by
  unfold Obligations.DecoderReproducesTheRightChannel
  intro l r s hencL hencR hdecL hequal
  have henc : LegalAt (.enc l r) s := ⟨hencL, hencR⟩
  have hdec : LegalAt (.dec (responseByte (encResponseOf hardware r s.encR))) (resultOf (.enc l r) s) :=
    ⟨hdecL, show InRange s.decR from hequal ▸ hencR⟩
  have hright := advance_rightCode_encResponseOf r hequal
  refine ⟨_, _, _, _, exec_of_legalAt henc, rfl, exec_of_legalAt hdec, rfl, hright, rfl, ?_, fun hlanes => ?_⟩
  · exact (responseRight_decResponseOf ..).trans (congrArg Channel.predicted hright)
  · have hleft := advance_leftCode_encResponseOf r (hlanes.trans hequal)
    exact ⟨hleft.trans hright.symm, (responseLeft_decResponseOf ..).trans (congrArg Channel.predicted hleft)⟩

/-- On a byte whose two codes are equal, equal decoder lanes stay equal and output the same sample (R126). -/
theorem resultOfAll_equal_lanes {bytes : List CodeByte} (hbytes : ∀ b ∈ bytes, leftCode b = rightCode b) {s : State}
    (hequal : s.decL = s.decR) :
    (resultOfAll (decodeCommands bytes) s).decL = (resultOfAll (decodeCommands bytes) s).decR ∧
      ∀ w ∈ responsesOfAll (decodeCommands bytes) s, responseLeft w = responseRight w := by
  induction bytes generalizing s with
  | nil => exact ⟨hequal, by simp [decodeCommands]⟩
  | cons b bytes ih =>
    obtain ⟨hb, hrest⟩ := List.forall_mem_cons.mp hbytes
    have hlanes : s.decL.advance hardware (leftCode b) = s.decR.advance hardware (rightCode b) := by rw [hb, hequal]
    obtain ⟨hend, houtputs⟩ := ih hrest (s := resultOf (.dec b) s) hlanes
    refine ⟨hend, List.forall_mem_cons.mpr ⟨?_, houtputs⟩⟩
    rw [responseLeft_decResponseOf, responseRight_decResponseOf, hlanes]

/-- Every response of a list of ENCODE_PAIRs carries one code in both nibbles of its byte (R101). -/
theorem codes_eq_of_mem_responsesOfAll {is : List Instr} (henc : ∀ i ∈ is, ∃ l r, i = .enc l r) (s : State) :
    ∀ w ∈ responsesOfAll is s, leftCode (responseByte w) = rightCode (responseByte w) := by
  induction is generalizing s with
  | nil => simp
  | cons i is ih =>
    obtain ⟨⟨l, r, rfl⟩, hrest⟩ := List.forall_mem_cons.mp henc
    obtain ⟨hleft, hright⟩ := codes_encResponseOf r s.encR
    exact List.forall_mem_cons.mpr ⟨hleft.trans hright.symm, ih hrest _⟩

/-- Every byte that ENCODE returns carries one code in both nibbles (R101). -/
theorem codes_eq_of_mem_encodeProcedure {pcm : List Sample} {s : State} (hl : InRange s.encL) (hr : InRange s.encR) :
    ∀ b ∈ (encodeProcedure pcm s).2, leftCode b = rightCode b := by
  rw [encodeProcedure_output pcm hl hr]
  exact List.forall_mem_map.mpr (codes_eq_of_mem_responsesOfAll (fun i => exists_eq_enc_of_mem) s)

/-- Sample `2 j` of DECODE's result is the left and sample `2 j + 1` the right sample of response `j` (R124). -/
theorem getElem?_decodeOutput (ws : List ResponseWord) (j : Nat) :
    (decodeOutput ws)[2 * j]? = ws[j]?.map responseLeft ∧ (decodeOutput ws)[2 * j + 1]? = ws[j]?.map responseRight := by
  induction ws generalizing j with
  | nil => simp [decodeOutput]
  | cons w ws ih =>
    cases j with
    | zero => exact ⟨rfl, rfl⟩
    | succ j => exact ih j

/-- Settles O51: ENCODE's bytes carry equal codes, on which equal lanes stay equal and output the same samples. -/
theorem encodedStreamsDecodeToEqualChannels : Obligations.EncodedStreamsDecodeToEqualChannels := by
  unfold Obligations.EncodedStreamsDecodeToEqualChannels
  intro pcm s u hencL hencR hdecL hequal bytes d
  have hdecR : InRange u.decR := hequal ▸ hdecL
  have hdone := decodeProcedure_done bytes hdecL hdecR
  obtain ⟨hlanes, houtputs⟩ := resultOfAll_equal_lanes (codes_eq_of_mem_encodeProcedure (pcm := pcm) hencL hencR) hequal
  refine ⟨hdone.stop, hdone.input, hdone.decL.trans (hlanes.trans hdone.decR.symm), ?_, fun j _ => ?_⟩
  · exact (length_decodeProcedure_output bytes hdecL hdecR).trans
      (congrArg (2 * ·) (length_encodeProcedure_output pcm hencL hencR))
  · have houtput : d.2 = decodeOutput (responsesOfAll (decodeCommands bytes) u) :=
      decodeProcedure_output bytes hdecL hdecR
    obtain ⟨heven, hodd⟩ := getElem?_decodeOutput (responsesOfAll (decodeCommands bytes) u) j
    rw [houtput, heven, hodd]
    exact Option.map_congr fun w hw => houtputs w (List.mem_of_getElem? hw)

/-- Decoding the bytes of a list of ENCODE_PAIRs from the encoder's right channel ends in the encoder's right channel (R127). -/
theorem resultOfAll_decode_encodeOutput {is : List Instr} (henc : ∀ i ∈ is, ∃ l r, i = .enc l r) {s u : State}
    (hequal : u.decR = s.encR) :
    (resultOfAll (decodeCommands (encodeOutput (responsesOfAll is s))) u).decR = (resultOfAll is s).encR := by
  induction is generalizing s u with
  | nil => exact hequal
  | cons i is ih =>
    obtain ⟨⟨l, r, rfl⟩, hrest⟩ := List.forall_mem_cons.mp henc
    exact ih hrest (s := resultOf (.enc l r) s) (advance_rightCode_encResponseOf r hequal)

/-- Settles O52: ENCODE keeps the decode direction, so DECODE starts from the right channel that ENCODE started from. -/
theorem decodingAStreamEndsInTheEncodersRightState : Obligations.DecodingAStreamEndsInTheEncodersRightState := by
  unfold Obligations.DecodingAStreamEndsInTheEncodersRightState
  intro pcm s hrange hequal e d
  obtain ⟨hencL, hencR, hdecL, hdecR⟩ := hrange
  have he := encodeProcedure_done pcm hencL hencR
  obtain ⟨hkeepL, hkeepR⟩ := resultOfAll_keeps_decoder (encodeDirection_of_mem_encodeCommands (pcm := pcm)) s
  have hedecL : e.1.state.decL = s.decL := he.decL.trans hkeepL
  have hedecR : e.1.state.decR = s.decR := he.decR.trans hkeepR
  have hd : ProcedureDone (decodeCommands e.2) e.1.state d.1 :=
    decodeProcedure_done e.2 (hedecL ▸ hdecL) (hedecR ▸ hdecR)
  obtain ⟨-, hkeep⟩ := resultOfAll_keeps_encoder (encodeDirection_of_mem_decodeCommands (bytes := e.2)) e.1.state
  have hencR' : d.1.state.encR = e.1.state.encR := hd.encR.trans hkeep
  have hbytes : e.2 = encodeOutput (responsesOfAll (encodeCommands pcm) s) := encodeProcedure_output pcm hencL hencR
  have hfollows := resultOfAll_decode_encodeOutput (is := encodeCommands pcm) (fun i => exists_eq_enc_of_mem)
    (hedecR.trans hequal)
  rw [← hbytes] at hfollows
  refine ⟨he.stop, hd.stop, hd.input.trans he.input, ?_, hencR'⟩
  rw [hencR', he.encR]
  exact hd.decR.trans hfollows

end Sys2Proof.Machine
end
